-- ==== Sys2Proof/Word.lean ====
section
/-! DEFINITION. The fixed-width words of the block: register words, bytes, register indices (spec 00_scope.md, 30_encoding.md). -/
namespace Sys2Proof

/-- One 32-bit word: a command, a control register or one word of a big register (20_memory.md R50). -/
abbrev Word := BitVec 32

/-- One byte lane of a 32-bit transaction (20_memory.md R49). -/
abbrev Byte := BitVec 8

/-- A register field of a command: a 4-bit index 0..15 (30_encoding.md R65). -/
abbrev RegIdx := BitVec 4

end Sys2Proof
end

