-- ==== Sys2Proof/Config.lean ====
section
/-! DEFINITION. What the spec leaves to the instance or to the platform (92_eei_decisions.md, open parameters), and the free values. -/
namespace Sys2Proof

/-- K of the instance that `State.reset` describes. The spec leaves K open (00_scope.md R6: 1 <= K <= 128), and
95_test_vectors.md uses K = 2. Every step reads K from the state, so no step depends on this number.
DESIGN CHOICE, log entry 1, unsafe only for a claim that starts at `State.reset` itself. -/
def Config.resetNwords : Nat := 2

/-- BLOCK_BASE divided by 0x2000: a free value (00_scope.md R8). Log entry 12, safe. -/
opaque Config.blockBaseIndex : Nat

/-- BLOCK_BASE, a multiple of 0x2000 chosen by the platform (00_scope.md R8). -/
def Config.blockBase : Nat := 0x2000 * Config.blockBaseIndex

/-- The n-th draw of the block: what a big-register word reads as while a command runs, any 32-bit value
(70_reset_and_hazards.md R173). A free value, log entry 8, safe. -/
opaque Config.busyRead : Nat → Word

/-- The responses the platform may give to an access that is no transaction of the block: the parameter BAD_ACCESS
(20_memory.md R50, 92_eei_decisions.md open parameters). The spec leaves open how wide the value of a bad read is: the
model takes its bits as one natural number, with no bound on the width. DESIGN CHOICE, log entry 25, safe. -/
inductive BadAccess where
  | busError
  | dropped
  | readValue (v : Nat)
deriving DecidableEq, Repr, Inhabited

/-- What the platform answers to a bad access, drawn afresh: the open parameter BAD_ACCESS (60_exceptions.md R147).
A free value, log entry 9, safe. -/
opaque Config.badAccess : Nat → BadAccess

end Sys2Proof
end

