-- ==== Sys2Proof/Syntax.lean ====
section
/-! DEFINITION. The command set, version 1: one constructor per row of spec/opcode_table.json (30_encoding.md R69). -/
namespace Sys2Proof

/-- A command. Operands are register indices as the word holds them, destinations first (30_encoding.md R65, R69).
There are no immediates (R73). -/
inductive Instr where
  | nop
  | mov (rd rs1 : RegIdx)
  | gcd (rd rs1 rs2 : RegIdx)
  | xgcd (rd rx ry rs1 rs2 : RegIdx)
  | inv (rd rs1 rs2 : RegIdx)
  | modred (rd rs1 rs2 : RegIdx)
  | modmul (rd rs1 rs2 rs3 : RegIdx)
  | montmul (rd rs1 rs2 rs3 : RegIdx)
  | modexp (rd rs1 rs2 rs3 : RegIdx)
  | rsaenc (rd rs1 : RegIdx)
  | rsadec (rd rs1 : RegIdx)
deriving DecidableEq, Repr

/-- The opcodes of the opcode map, by name (30_encoding.md R69). -/
inductive Op where
  | nop | mov | gcd | xgcd | inv | modred | modmul | montmul | modexp | rsaenc | rsadec
deriving DecidableEq, Repr

/-- The five command formats (30_encoding.md R66). -/
inductive Format where
  | n | r2 | r3 | r4 | x
deriving DecidableEq, Repr

/-- The register fields of a command word (30_encoding.md R65); `rs3x` is bits [23:20], RS3 in format R4 and RX in
format X. -/
inductive Field where
  | rd | rs1 | rs2 | rs3x | ry
deriving DecidableEq, Repr

/-- Why a word is no command: the three causes of ILLEGAL (60_exceptions.md R142). -/
inductive DecodeError where
  /-- its OP is not in the opcode map (30_encoding.md R71) -/
  | unassignedOpcode
  /-- a must-be-zero bit is set (30_encoding.md R68) -/
  | mustBeZero
  /-- a used register field holds 11 to 15 (30_encoding.md R70) -/
  | reservedRegister
deriving DecidableEq, Repr

end Sys2Proof
end

