-- ==== Sys2Proof/Machine/State.lean ====
section
/-! DEFINITION. The state of the block and of the inputs that drive it, as plain data (10_state.md), and the state right after reset (R42). -/
namespace Sys2Proof.Machine

/-- Reasons for a fault. The one fault of the spec is recorded in the state and does not stop the machine
(60_exceptions.md R147), so no step answers it as an outcome. -/
inductive Fault where
  /-- ACCESS_FAULT: recorded in `State.faultRecord` by a Host access that is not an aligned 32-bit access inside the
  window (20_memory.md R50). Safe: a run that records it is never a good run (70_reset_and_hazards.md R179). -/
  | accessFault
deriving DecidableEq, Repr

/-- Reasons for a refusal. -/
inductive Refusal where
  /-- An instruction without a meaning yet, raised by `exec`. No arm of `exec` raises it: every command has its
  meaning. Safe. -/
  | notModelled (mnemonic : String)
deriving DecidableEq, Repr

/-- STATUS.ERRCODE; the values 6-15 are never produced (60_exceptions.md R141). -/
inductive ErrCode where
  | ok | illegal | modzero | evenmod | range | notinv
deriving DecidableEq, Repr

/-- The hidden command latch LATCH: the accepted word, the values of its register fields and of the key registers,
all read at acceptance (10_state.md R37, R40). -/
structure Latch where
  word : Word
  rd : Nat
  rs1 : Nat
  rs2 : Nat
  rs3x : Nat
  ry : Nat
  kn : Nat
  ke : Nat
  kd : Nat
deriving DecidableEq, Repr

/-- LATCH after reset: no command in flight (10_state.md R42). DESIGN CHOICE, log entry 3: written as zeros, safe,
since acceptance overwrites every value a completion reads. -/
def Latch.empty : Latch :=
  { word := 0, rd := 0, rs1 := 0, rs2 := 0, rs3x := 0, ry := 0, kn := 0, ke := 0, kd := 0 }

/-- What a command's computation ends with (00_scope.md R16): an error code and no write, or the destination writes
in their order. -/
inductive Result where
  | error (code : ErrCode)
  | commit (writes : List (RegIdx × Nat))
deriving DecidableEq, Repr

/-- The agent that takes the next step (10_state.md R20, 60_exceptions.md R152): the Host, the Engine, or the reset
input (20_memory.md R44). -/
inductive Turn where
  | host | engine | resetPin
deriving DecidableEq, Repr

/-- One line of the Host: a transaction, or a line of the driver protocol made of reads of STATUS. -/
inductive HostOp where
  /-- a read of `width` bits at a byte offset of the window (00_scope.md R15) -/
  | read (width off : Nat)
  /-- a write (00_scope.md R15); one of another width than 32 is no transaction, so its data does not matter (log
  entry 18) -/
  | write (width off : Nat) (v : Word)
  /-- the polling loop WAIT (00_scope.md R18; log entry 17) -/
  | wait
  /-- wait for irq, then read STATUS and check BUSY = 0 (70_reset_and_hazards.md R174; log entry 17) -/
  | waitIrq
  /-- read STATUS and check OVR and ERRCODE (70_reset_and_hazards.md R174); on a failed check the Host goes on behind the
  next `skip` lines (log entry 24) -/
  | check (skip : Nat)
deriving DecidableEq, Repr

/-- What the Host finds in a STATUS it checks: a dropped write, and the error code (70_reset_and_hazards.md R174). -/
structure Verdict where
  overrun : Bool
  error : BitVec 4
deriving DecidableEq, Repr

/-- What the Host has seen: the value of a read, what it found in a STATUS it checked, or the platform's answer to a bad
access (70_reset_and_hazards.md R174, R179; 20_memory.md R50). -/
inductive Observation where
  | value (off : Nat) (v : Word)
  | verdict (v : Verdict)
  | badAccess (op : HostOp) (answer : BadAccess)
deriving DecidableEq, Repr

/-- The machine. The first group is the block's own state (10_state.md R42), the second the model's record of faults
(60_exceptions.md R147), the third the inputs and the observation of a run (log entries 5, 7, 8, 10). -/
structure State where
  /-- the big registers R0-R7, KN, KE, KD, by index (R21); each below `2 ^ width` (R12, log entry 2) -/
  x : Vector Nat 11
  /-- PARAM.NWORDS, the parameter K, which no step changes (R28) -/
  nwords : Nat
  /-- CMD (R30) -/
  cmd : Word
  /-- STATUS.BUSY (R31) -/
  busy : Bool
  /-- STATUS.DONE (R31) -/
  done : Bool
  /-- STATUS.OVR (R31) -/
  ovr : Bool
  /-- STATUS.ERRCODE (R31) -/
  errcode : ErrCode
  /-- IRQ_EN.DONE_EN (R32) -/
  doneEn : Bool
  /-- IRQ_PEND.DONE_PEND (R33) -/
  donePend : Bool
  /-- LATCH (R37) -/
  latch : Latch
  /-- the fault record, which no step clears (60_exceptions.md R147) -/
  faultRecord : Option Fault
  /-- the Host's lines still to run, the first one next (20_memory.md R58) -/
  hostOps : List HostOp
  /-- the turns still to be taken (R20) -/
  schedule : List Turn
  /-- what the Host has read, newest first (70_reset_and_hazards.md R179) -/
  observed : List Observation
  /-- how many free values have been drawn (70_reset_and_hazards.md R173) -/
  draws : Nat
deriving DecidableEq, Repr

/-- The state right after reset (10_state.md R42), with no input given and nothing observed. K is log entry 1. -/
def State.reset : State :=
  { x := Vector.replicate 11 0, nwords := Config.resetNwords, cmd := 0, busy := false, done := false, ovr := false,
    errcode := .ok, doneEn := false, donePend := false, latch := Latch.empty, faultRecord := none, hostOps := [],
    schedule := [], observed := [], draws := 0 }

end Sys2Proof.Machine
end

