-- ==== Sys2Proof/Machine/Flags.lean ====
section
/-! DEFINITION. The status flags, as the Host reads them, and the interrupt output (10_state.md R31-R35). -/
namespace Sys2Proof.Machine

/-- The number of an error code (60_exceptions.md R141). -/
def ErrCode.code : ErrCode → BitVec 4
  | .ok => 0
  | .illegal => 1
  | .modzero => 2
  | .evenmod => 3
  | .range => 4
  | .notinv => 5

/-- STATUS.ERR: 1 exactly when ERRCODE is not 0; it has no storage (10_state.md R31). -/
def State.err (s : State) : Bool := s.errcode.code != 0

/-- The STATUS word: reserved, ERRCODE [7:4], OVR [3], ERR [2], DONE [1], BUSY [0] (10_state.md R31). -/
def State.statusWord (s : State) : Word :=
  0#24 ++ s.errcode.code ++ BitVec.ofBool s.ovr ++ BitVec.ofBool s.err ++ BitVec.ofBool s.done ++ BitVec.ofBool s.busy

/-- A control register with one storage bit, bit 0 (10_state.md R32, R33). -/
def bitWord (b : Bool) : Word := 0#31 ++ BitVec.ofBool b

/-- The level output `irq` (10_state.md R35, 60_exceptions.md R150). -/
def State.irq (s : State) : Bool := s.doneEn && s.donePend

/-- The error code a command's result reports (00_scope.md R16). -/
def Result.code : Result → ErrCode
  | .error c => c
  | .commit _ => .ok

end Sys2Proof.Machine
end

