-- ==== Sys2Proof/WellFormed.lean ====
section
/-! DEFINITION. Which commands are well formed: every used register field names a big register (30_encoding.md R70). -/
namespace Sys2Proof

/-- The index names one of the 11 big registers (10_state.md R21). -/
def namesReg (r : RegIdx) : Bool := r.toNat < 11

/-- The destinations of a command, in the order they are written (30_encoding.md R67, 41_gcd_inverse.md R89). -/
def Instr.dests : Instr → List RegIdx
  | .nop => []
  | .mov rd _ => [rd]
  | .gcd rd _ _ => [rd]
  | .xgcd rd rx ry _ _ => [rd, rx, ry]
  | .inv rd _ _ => [rd]
  | .modred rd _ _ => [rd]
  | .modmul rd _ _ _ => [rd]
  | .montmul rd _ _ _ => [rd]
  | .modexp rd _ _ _ => [rd]
  | .rsaenc rd _ => [rd]
  | .rsadec rd _ => [rd]

/-- The explicit sources of a command (30_encoding.md R67). -/
def Instr.sources : Instr → List RegIdx
  | .nop => []
  | .mov _ rs1 => [rs1]
  | .gcd _ rs1 rs2 => [rs1, rs2]
  | .xgcd _ _ _ rs1 rs2 => [rs1, rs2]
  | .inv _ rs1 rs2 => [rs1, rs2]
  | .modred _ rs1 rs2 => [rs1, rs2]
  | .modmul _ rs1 rs2 rs3 => [rs1, rs2, rs3]
  | .montmul _ rs1 rs2 rs3 => [rs1, rs2, rs3]
  | .modexp _ rs1 rs2 rs3 => [rs1, rs2, rs3]
  | .rsaenc _ rs1 => [rs1]
  | .rsadec _ rs1 => [rs1]

/-- A command is well formed when no used field holds a reserved index (30_encoding.md R70). -/
def Instr.wf (i : Instr) : Bool := i.dests.all namesReg && i.sources.all namesReg

end Sys2Proof
end

