-- ==== Sys2Proof/Decode.lean ====
section
/-! DEFINITION. The decoder of command words, total on every 32-bit word (30_encoding.md R64-R74), and the encoder (R75). -/
namespace Sys2Proof

/-- OP, bits [7:0] (30_encoding.md R65). -/
def opField (w : Word) : BitVec 8 := w.extractLsb' 0 8

/-- The lowest bit of a register field (30_encoding.md R65). -/
def Field.lo : Field → Nat
  | .rd => 8
  | .rs1 => 12
  | .rs2 => 16
  | .rs3x => 20
  | .ry => 24

/-- The index a register field of a word holds (30_encoding.md R65). -/
def Field.of (f : Field) (w : Word) : RegIdx := w.extractLsb' f.lo 4

/-- The opcode numbers (30_encoding.md R69). -/
def Op.code : Op → BitVec 8
  | .nop => 0x00
  | .mov => 0x01
  | .gcd => 0x10
  | .xgcd => 0x11
  | .inv => 0x12
  | .modred => 0x20
  | .modmul => 0x21
  | .montmul => 0x22
  | .modexp => 0x30
  | .rsaenc => 0x40
  | .rsadec => 0x41

/-- The opcode map read backwards; every other OP value is reserved (30_encoding.md R69, R71). -/
def opOf (c : BitVec 8) : Option Op :=
  match c.toNat with
  | 0x00 => some .nop
  | 0x01 => some .mov
  | 0x10 => some .gcd
  | 0x11 => some .xgcd
  | 0x12 => some .inv
  | 0x20 => some .modred
  | 0x21 => some .modmul
  | 0x22 => some .montmul
  | 0x30 => some .modexp
  | 0x40 => some .rsaenc
  | 0x41 => some .rsadec
  | _ => none

/-- The format of each opcode (30_encoding.md R69). -/
def Op.format : Op → Format
  | .nop => .n
  | .mov => .r2
  | .gcd => .r3
  | .xgcd => .x
  | .inv => .r3
  | .modred => .r3
  | .modmul => .r4
  | .montmul => .r4
  | .modexp => .r4
  | .rsaenc => .r2
  | .rsadec => .r2

/-- The register fields a format uses (30_encoding.md R66). -/
def Format.fields : Format → List Field
  | .n => []
  | .r2 => [.rd, .rs1]
  | .r3 => [.rd, .rs1, .rs2]
  | .r4 => [.rd, .rs1, .rs2, .rs3x]
  | .x => [.rd, .rs1, .rs2, .rs3x, .ry]

/-- The fixed bits of a format: OP and every must-be-zero bit (30_encoding.md R66). -/
def Format.mask : Format → Word
  | .n => 0xFFFFFFFF
  | .r2 => 0xFFFF00FF
  | .r3 => 0xFFF000FF
  | .r4 => 0xFF0000FF
  | .x => 0xF00000FF

/-- The register fields a word uses: none where its OP is not assigned (30_encoding.md R66, R69). -/
def usedFields (w : Word) : List Field :=
  match opOf (opField w) with
  | some op => op.format.fields
  | none => []

/-- The command of an opcode with the fields of a word (30_encoding.md R69, R74). -/
def Op.build (op : Op) (w : Word) : Instr :=
  let rd := Field.rd.of w
  let rs1 := Field.rs1.of w
  let rs2 := Field.rs2.of w
  let rs3 := Field.rs3x.of w
  match op with
  | .nop => .nop
  | .mov => .mov rd rs1
  | .gcd => .gcd rd rs1 rs2
  | .xgcd => .xgcd rd (Field.rs3x.of w) (Field.ry.of w) rs1 rs2
  | .inv => .inv rd rs1 rs2
  | .modred => .modred rd rs1 rs2
  | .modmul => .modmul rd rs1 rs2 rs3
  | .montmul => .montmul rd rs1 rs2 rs3
  | .modexp => .modexp rd rs1 rs2 rs3
  | .rsaenc => .rsaenc rd rs1
  | .rsadec => .rsadec rd rs1

/-- The decoding algorithm, total on all 32-bit words (30_encoding.md R72). -/
def decode (w : Word) : Except DecodeError Instr :=
  match opOf (opField w) with
  | none => .error .unassignedOpcode
  | some op =>
    if w &&& op.format.mask ≠ op.code.setWidth 32 then .error .mustBeZero
    else if op.format.fields.all (fun f => namesReg (f.of w)) then .ok (op.build w)
    else .error .reservedRegister

/-- The byte at offset `off + k` of an aligned word: data bits [8k+7:8k] (20_memory.md R49). -/
def byteLane (w : Word) (k : Nat) : Byte := w.extractLsb' (8 * k) 8

/-- The word whose four byte lanes are given, lowest offset first (20_memory.md R49). -/
def ofLanes (b0 b1 b2 b3 : Byte) : Word := b3 ++ b2 ++ b1 ++ b0

/-- A command decoded from the four bytes of its one aligned word (20_memory.md R49, R51). -/
def decodeBytes (b0 b1 b2 b3 : Byte) : Except DecodeError Instr := decode (ofLanes b0 b1 b2 b3)

/-- The encoding function on raw fields (30_encoding.md R75). -/
def encodeFields (op : BitVec 8) (rd rs1 rs2 rs3x ry : RegIdx) : Word :=
  op.setWidth 32 ||| rd.setWidth 32 <<< 8 ||| rs1.setWidth 32 <<< 12 ||| rs2.setWidth 32 <<< 16
    ||| rs3x.setWidth 32 <<< 20 ||| ry.setWidth 32 <<< 24

/-- The word of a command: `encodeFields` with every field its format does not use given as 0 (30_encoding.md R75). -/
def encode : Instr → Word
  | .nop => encodeFields Op.nop.code 0 0 0 0 0
  | .mov rd rs1 => encodeFields Op.mov.code rd rs1 0 0 0
  | .gcd rd rs1 rs2 => encodeFields Op.gcd.code rd rs1 rs2 0 0
  | .xgcd rd rx ry rs1 rs2 => encodeFields Op.xgcd.code rd rs1 rs2 rx ry
  | .inv rd rs1 rs2 => encodeFields Op.inv.code rd rs1 rs2 0 0
  | .modred rd rs1 rs2 => encodeFields Op.modred.code rd rs1 rs2 0 0
  | .modmul rd rs1 rs2 rs3 => encodeFields Op.modmul.code rd rs1 rs2 rs3 0
  | .montmul rd rs1 rs2 rs3 => encodeFields Op.montmul.code rd rs1 rs2 rs3 0
  | .modexp rd rs1 rs2 rs3 => encodeFields Op.modexp.code rd rs1 rs2 rs3 0
  | .rsaenc rd rs1 => encodeFields Op.rsaenc.code rd rs1 0 0 0
  | .rsadec rd rs1 => encodeFields Op.rsadec.code rd rs1 0 0 0

/-- The opcode of a command (30_encoding.md R69). -/
def Instr.op : Instr → Op
  | .nop => .nop
  | .mov _ _ => .mov
  | .gcd _ _ _ => .gcd
  | .xgcd _ _ _ _ _ => .xgcd
  | .inv _ _ _ => .inv
  | .modred _ _ _ => .modred
  | .modmul _ _ _ _ => .modmul
  | .montmul _ _ _ _ => .montmul
  | .modexp _ _ _ _ => .modexp
  | .rsaenc _ _ => .rsaenc
  | .rsadec _ _ => .rsadec

/-- The command an opcode-table word stands for: a word of at most 32 bits, the bits above `nbits` zero, given to
`decode`. A longer word is no command (30_encoding.md R64; log entry 23). -/
def decodeTableWord (nbits w : Nat) : Option Instr :=
  if nbits ≤ 32 then (decode (BitVec.ofNat 32 (w % 2 ^ nbits))).toOption else none

end Sys2Proof
end

