-- ==== Sys2Proof/Machine/Operands.lean ====
section
/-! DEFINITION. Big-register access by index, and how acceptance latches a word's operands (10_state.md R21-R23, R37; 30_encoding.md R74). -/
namespace Sys2Proof.Machine

/-- W, the width in bits of every big register (00_scope.md R7). -/
def State.width (s : State) : Nat := 32 * s.nwords

/-- KN, the RSA modulus (10_state.md R21). -/
def regKN : RegIdx := 8

/-- KE, the RSA public exponent (10_state.md R21). -/
def regKE : RegIdx := 9

/-- KD, the RSA private exponent (10_state.md R21). -/
def regKD : RegIdx := 10

/-- The value of a big register. A reserved index 11-15 names no storage (10_state.md R21); nothing legal reads one. -/
def State.reg (s : State) (r : RegIdx) : Nat := s.x[r.toNat]?.getD 0

/-- The register file after a list of writes, in their order, so that a later write to the same register stays
(10_state.md R38, 41_gcd_inverse.md R89). -/
def writeRegs (x : Vector Nat 11) (writes : List (RegIdx × Nat)) : Vector Nat 11 :=
  writes.foldl (fun x w => x.setIfInBounds w.1.toNat w.2) x

/-- `x[r] <- v` (00_scope.md R14). -/
def State.setReg (s : State) (r : RegIdx) (v : Nat) : State := { s with x := writeRegs s.x [(r, v)] }

/-- LATCH.val[f] (10_state.md R37). -/
def Latch.val (l : Latch) : Field → Nat
  | .rd => l.rd
  | .rs1 => l.rs1
  | .rs2 => l.rs2
  | .rs3x => l.rs3x
  | .ry => l.ry

/-- `LATCH.val[f] <- v` (10_state.md R37). -/
def Latch.setVal (l : Latch) (f : Field) (v : Nat) : Latch :=
  match f with
  | .rd => { l with rd := v }
  | .rs1 => { l with rs1 := v }
  | .rs2 => { l with rs2 := v }
  | .rs3x => { l with rs3x := v }
  | .ry => { l with ry := v }

/-- One turn of the latching loop: a field whose index is 0..10 takes that register's value, another field keeps its
latched value (10_state.md R37; log entry 4). -/
def State.latchField (s : State) (v : Word) (l : Latch) (f : Field) : Latch :=
  if namesReg (f.of v) then l.setVal f (s.reg (f.of v)) else l

/-- LATCH as acceptance of the word `v` leaves it (10_state.md R37). -/
def State.latchOf (s : State) (v : Word) : Latch :=
  (usedFields v).foldl (s.latchField v)
    { s.latch with word := v, kn := s.reg regKN, ke := s.reg regKE, kd := s.reg regKD }

end Sys2Proof.Machine
end

