-- ==== Sys2Proof/Machine/Ops.lean ====
section
/-! DEFINITION. The shared operations of the block: acceptance, completion, error reporting and reset (10_state.md R37, R38; 60_exceptions.md R146; 70_reset_and_hazards.md R164). -/
namespace Sys2Proof.Machine

/-- Acceptance of a command word, one atomic step (10_state.md R37). -/
def State.accept (s : State) (v : Word) : State :=
  { s with cmd := v, latch := s.latchOf v, done := false, errcode := .ok, busy := true }

/-- The register file after a result: on an error no big register changes (10_state.md R38, 60_exceptions.md R146). -/
def Result.apply (r : Result) (x : Vector Nat 11) : Vector Nat 11 :=
  match r with
  | .error _ => x
  | .commit writes => writeRegs x writes

/-- Completion, one atomic step, error or not (10_state.md R38, 60_exceptions.md R146). This is the block's whole
error entry: it takes no trap, saves no state and jumps nowhere (60_exceptions.md R153). The Host's acknowledgement,
the nearest thing to a return (R154), is the write of IRQ_PEND in `State.writeLoc`. -/
def State.complete (s : State) (r : Result) : State :=
  { s with x := r.apply s.x, errcode := r.code, busy := false, done := true, donePend := true }

/-- Completion of a command with the register fields it uses: a reserved index makes the command ILLEGAL before any
other check (30_encoding.md R70, 60_exceptions.md R148; log entry 11), otherwise its computation decides. -/
def State.finish (s : State) (used : List RegIdx) (r : Result) : Host.Outcome State Fault Refusal :=
  .next (s.complete (if used.all namesReg then r else .error .illegal))

/-- The modulus check that comes before every other check of a computation (60_exceptions.md R143, R148). -/
def Result.withModulus (n : Nat) (r : Result) : Result := if n = 0 then .error .modzero else r

/-- Reset of the block, by the reset input or by CTRL.SRST: every piece of the block's state at its reset value, in
one step, K unchanged (10_state.md R42, R28; 70_reset_and_hazards.md R164, R165). The fault record, which no step
clears (60_exceptions.md R147), and the run's inputs and observation are not the block's state. -/
def State.blockReset (s : State) : State :=
  { s with x := Vector.replicate 11 0, cmd := 0, busy := false, done := false, ovr := false, errcode := .ok,
           doneEn := false, donePend := false, latch := Latch.empty }

end Sys2Proof.Machine
end

