-- ==== Sys2Proof/Machine/Control.lean ====
section
/-! DEFINITION. The control and data-movement commands NOP and MOV (40_control.md). -/
namespace Sys2Proof.Machine

/-- NOP: commits no write (40_control.md R81). -/
def execNop (s : State) : Host.Outcome State Fault Refusal := s.finish [] (.commit [])

/-- MOV: `x[rd] <- a` (40_control.md R82). -/
def execMov (rd rs1 : RegIdx) (s : State) : Host.Outcome State Fault Refusal :=
  s.finish [rd, rs1] (.commit [(rd, s.latch.rs1)])

end Sys2Proof.Machine
end

