-- ==== Sys2Proof/Machine/Arith.lean ====
section
/-! DEFINITION. The exact arithmetic of the commands, on unbounded integers (00_scope.md R5, R12, R13). -/
namespace Sys2Proof.Machine

/-- `tc_W(s)`: the W-bit two's-complement pattern of a signed integer (00_scope.md R12). -/
def tcW (w : Nat) (s : Int) : Nat := (s % (2 ^ w : Nat)).toNat

/-- `sext_W(v)`: a W-bit pattern read as two's complement (00_scope.md R12). -/
def sextW (w : Nat) (v : Nat) : Int := if v < 2 ^ (w - 1) then (v : Int) else (v : Int) - (2 ^ w : Nat)

/-- The loop of EGCD (41_gcd_inverse.md R87), with `r0 mod r1` for `r0 - q*r1` (00_scope.md R13). The first argument
bounds the number of turns: `r1` falls at every turn, so any bound of at least `r1` is never used up. -/
def egcdLoop : Nat → Nat → Nat → Int → Int → Int → Int → Nat × Int × Int
  | 0, r0, _, s0, _, t0, _ => (r0, s0, t0)
  | fuel + 1, r0, r1, s0, s1, t0, t1 =>
    if r1 = 0 then (r0, s0, t0)
    else egcdLoop fuel r1 (r0 % r1) s1 (s0 - (r0 / r1 : Nat) * s1) t1 (t0 - (r0 / r1 : Nat) * t1)

/-- EGCD, the iterative extended Euclidean algorithm (41_gcd_inverse.md R87). -/
def egcd (a b : Nat) : Nat × Int × Int := egcdLoop b a b 1 0 0 1

/-- `s mod m` for a signed s: the representative in [0, m) (00_scope.md R13). -/
def signedMod (s : Int) (m : Nat) : Nat := (s % (m : Int)).toNat

/-- The inverse of `a` modulo `m` by EGCD, for `gcd (a, m) = 1` (41_gcd_inverse.md R90). -/
def inverseMod (a m : Nat) : Nat := signedMod (egcd (a % m) m).2.1 m

/-- `Rinv(n)`, the inverse modulo an odd n of the Montgomery radix `2^W` (42_modmul.md R97). -/
def rinv (w n : Nat) : Nat := inverseMod (2 ^ w) n

/-- The number of bits of a natural number (43_modexp.md R105). -/
def bitlen (b : Nat) : Nat := if b = 0 then 0 else Nat.log2 b + 1

/-- The loop of left-to-right binary square-and-multiply over the bits i-1 .. 0 of `b` (43_modexp.md R105). -/
def modexpLoop (a b n : Nat) : Nat → Nat → Nat
  | 0, r => r
  | i + 1, r => modexpLoop a b n i (if b.testBit i then r * r % n * a % n else r * r % n)

/-- `(a ^ b) mod n` (43_modexp.md R103), computed as R105 does, so that it can be evaluated; `Laws.modexp_eq` proves
that it is `a ^ b % n`. Log entry 13. -/
def modexp (a b n : Nat) : Nat := modexpLoop (a % n) b n (bitlen b) (1 % n)

end Sys2Proof.Machine
end

