-- ==== Sys2Proof/Machine/GcdInverse.lean ====
section
/-! DEFINITION. GCD, extended GCD and modular inverse (41_gcd_inverse.md). -/
namespace Sys2Proof.Machine

/-- GCD: `x[rd] <- gcd(a, b)`, for every pair (41_gcd_inverse.md R84). -/
def execGcd (rd rs1 rs2 : RegIdx) (s : State) : Host.Outcome State Fault Refusal :=
  s.finish [rd, rs1, rs2] (.commit [(rd, Nat.gcd s.latch.rs1 s.latch.rs2)])

/-- XGCD: g, then the Bézout pair as W-bit two's-complement patterns, written in this order
(41_gcd_inverse.md R86, R88, R89). -/
def execXgcd (rd rx ry rs1 rs2 : RegIdx) (s : State) : Host.Outcome State Fault Refusal :=
  let e := egcd s.latch.rs1 s.latch.rs2
  s.finish [rd, rx, ry, rs1, rs2]
    (.commit [(rd, e.1), (rx, tcW s.width e.2.1), (ry, tcW s.width e.2.2)])

/-- INV: the inverse of a modulo m in [0, m), or MODZERO, or NOTINV (41_gcd_inverse.md R90, R91). -/
def execInv (rd rs1 rs2 : RegIdx) (s : State) : Host.Outcome State Fault Refusal :=
  let a := s.latch.rs1
  let m := s.latch.rs2
  s.finish [rd, rs1, rs2]
    (.withModulus m (if (egcd (a % m) m).1 ≠ 1 then .error .notinv else .commit [(rd, inverseMod a m)]))

end Sys2Proof.Machine
end

