-- ==== Sys2Proof/Machine/ModExp.lean ====
section
/-! DEFINITION. The modular-exponentiation engine (43_modexp.md). -/
namespace Sys2Proof.Machine

/-- MODEXP: `x[rd] <- (a ^ b) mod n`, exact, for every base, exponent and non-zero modulus (43_modexp.md R103, R104). -/
def execModexp (rd rs1 rs2 rs3 : RegIdx) (s : State) : Host.Outcome State Fault Refusal :=
  let n := s.latch.rs3x
  s.finish [rd, rs1, rs2, rs3] (.withModulus n (.commit [(rd, modexp s.latch.rs1 s.latch.rs2 n)]))

end Sys2Proof.Machine
end

