-- ==== Sys2Proof/Machine/ModMul.lean ====
section
/-! DEFINITION. Modular reduction, multiplication and the Montgomery product (42_modmul.md). -/
namespace Sys2Proof.Machine

/-- MODRED: `x[rd] <- a mod n` (42_modmul.md R93). -/
def execModred (rd rs1 rs2 : RegIdx) (s : State) : Host.Outcome State Fault Refusal :=
  let n := s.latch.rs2
  s.finish [rd, rs1, rs2] (.withModulus n (.commit [(rd, s.latch.rs1 % n)]))

/-- MODMUL: `x[rd] <- (a * b) mod n`, from the exact product (42_modmul.md R95). -/
def execModmul (rd rs1 rs2 rs3 : RegIdx) (s : State) : Host.Outcome State Fault Refusal :=
  let n := s.latch.rs3x
  s.finish [rd, rs1, rs2, rs3] (.withModulus n (.commit [(rd, s.latch.rs1 * s.latch.rs2 % n)]))

/-- MONTMUL: `x[rd] <- (a * b * Rinv(n)) mod n`, or EVENMOD for an even n (42_modmul.md R98, 60_exceptions.md R144). -/
def execMontmul (rd rs1 rs2 rs3 : RegIdx) (s : State) : Host.Outcome State Fault Refusal :=
  let n := s.latch.rs3x
  s.finish [rd, rs1, rs2, rs3]
    (.withModulus n
      (if n % 2 = 0 then .error .evenmod
       else .commit [(rd, s.latch.rs1 * s.latch.rs2 * rinv s.width n % n)]))

end Sys2Proof.Machine
end

