-- ==== Sys2Proof/Machine/RsaCipher.lean ====
section
/-! DEFINITION. The RSA cipher unit (44_rsa_cipher.md). -/
namespace Sys2Proof.Machine

/-- The computation RSAENC and RSADEC share: the block must be below the modulus, then modular exponentiation
(44_rsa_cipher.md R108, R110). -/
def rsaResult (rd : RegIdx) (block exponent n : Nat) : Result :=
  .withModulus n (if n ≤ block then .error .range else .commit [(rd, modexp block exponent n)])

/-- RSAENC: `x[rd] <- (B ^ KE) mod KN` with the latched keys (44_rsa_cipher.md R108). -/
def execRsaenc (rd rs1 : RegIdx) (s : State) : Host.Outcome State Fault Refusal :=
  s.finish [rd, rs1] (rsaResult rd s.latch.rs1 s.latch.ke s.latch.kn)

/-- RSADEC: `x[rd] <- (C ^ KD) mod KN` with the latched keys (44_rsa_cipher.md R110). -/
def execRsadec (rd rs1 : RegIdx) (s : State) : Host.Outcome State Fault Refusal :=
  s.finish [rd, rs1] (rsaResult rd s.latch.rs1 s.latch.kd s.latch.kn)

end Sys2Proof.Machine
end

