-- ==== Sys2Proof/Machine/Dispatch.lean ====
section
/-! DEFINITION. `exec`: the completion of a decoded command (10_state.md R38), one arm per command. -/
namespace Sys2Proof.Machine

def exec (i : Instr) (s : State) : Host.Outcome State Fault Refusal :=
  match i with
  | .nop => Sys2Proof.Machine.execNop s
  | .mov rd rs1 => Sys2Proof.Machine.execMov rd rs1 s
  | .gcd rd rs1 rs2 => Sys2Proof.Machine.execGcd rd rs1 rs2 s
  | .xgcd rd rx ry rs1 rs2 => Sys2Proof.Machine.execXgcd rd rx ry rs1 rs2 s
  | .inv rd rs1 rs2 => Sys2Proof.Machine.execInv rd rs1 rs2 s
  | .modred rd rs1 rs2 => Sys2Proof.Machine.execModred rd rs1 rs2 s
  | .modmul rd rs1 rs2 rs3 => Sys2Proof.Machine.execModmul rd rs1 rs2 rs3 s
  | .montmul rd rs1 rs2 rs3 => Sys2Proof.Machine.execMontmul rd rs1 rs2 rs3 s
  | .modexp rd rs1 rs2 rs3 => Sys2Proof.Machine.execModexp rd rs1 rs2 rs3 s
  | .rsaenc rd rs1 => Sys2Proof.Machine.execRsaenc rd rs1 s
  | .rsadec rd rs1 => Sys2Proof.Machine.execRsadec rd rs1 s

end Sys2Proof.Machine
end

