-- ==== Sys2Proof/Machine/Engine.lean ====
section
/-! DEFINITION. The Engine's one step: completion of the latched word (10_state.md R38). -/
namespace Sys2Proof.Machine

/-- The Engine's step *complete*, enabled when STATUS.BUSY = 1 (10_state.md R38): the latched word's command, or
ILLEGAL where the word is no command (60_exceptions.md R142). While BUSY = 0 the Engine has no step to take
(R20), so a turn of it changes nothing (log entry 6). -/
def engineTurn (s : State) : Host.Outcome State Fault Refusal :=
  if s.busy then
    match decode s.latch.word with
    | .ok i => exec i s
    | .error _ => .next (s.complete (.error .illegal))
  else .next s

end Sys2Proof.Machine
end

