-- ==== Sys2Proof/Machine/Mmio.lean ====
section
/-! DEFINITION. The register window: what each offset holds, and one Host transaction (20_memory.md; 10_state.md R24-R33; 70_reset_and_hazards.md R171-R173). -/
namespace Sys2Proof.Machine

/-- What an aligned word of the window holds (20_memory.md R47, 10_state.md R24). -/
inductive Location where
  | id | param | ctrl | cmd | status | irqEn | irqPend
  | reserved
  | bigWord (r : RegIdx) (i : Nat)
deriving DecidableEq, Repr

/-- The window map (20_memory.md R46-R48, R50, R52); nothing at an offset that is misaligned or outside the window. -/
def locate (off : Nat) : Option Location :=
  if off % 4 ≠ 0 ∨ 0x2000 ≤ off then none
  else if off < 0x400 then
    match off with
    | 0x000 => some .id
    | 0x004 => some .param
    | 0x008 => some .ctrl
    | 0x010 => some .cmd
    | 0x014 => some .status
    | 0x018 => some .irqEn
    | 0x01C => some .irqPend
    | _ => some .reserved
  else if off < 0x1A00 then
    some (.bigWord (BitVec.ofNat 4 ((off - 0x400) / 0x200)) ((off - 0x400) % 0x200 / 4))
  else some .reserved

/-- The offset of word i of the window of big register r (20_memory.md R48). -/
def bigOffset (r : RegIdx) (i : Nat) : Nat := 0x400 + 0x200 * r.toNat + 4 * i

/-- The host physical address of an offset (00_scope.md R8). Log entry 12. -/
def physicalAddress (off : Nat) : Nat := Config.blockBase + off

/-- The location a host access of a width reaches; only aligned 32-bit accesses inside the window are transactions
(20_memory.md R50). -/
def locateAccess (width off : Nat) : Option Location := if width = 32 then locate off else none

/-- Word i of a big-register value: bits [32i+31:32i] (20_memory.md R48, R49). -/
def wordAt (v i : Nat) : Word := BitVec.ofNat 32 (v / 2 ^ (32 * i))

/-- A big-register value with its word i replaced, its other bits unchanged (20_memory.md R48). -/
def setWordAt (v i : Nat) (w : Word) : Nat :=
  v / 2 ^ (32 * (i + 1)) * 2 ^ (32 * (i + 1)) + w.toNat * 2 ^ (32 * i) + v % 2 ^ (32 * i)

/-- ID: "RSA1", version 1 of the command set (10_state.md R27). -/
def idValue : Word := 0x52534131

/-- PARAM: NWORDS in [15:0] (10_state.md R28). -/
def State.paramWord (s : State) : Word := (BitVec.ofNat 16 s.nwords).setWidth 32

/-- MmioRead of a location: the value, and the state after, which differs only by the draw that a big-register read
takes while a command runs (20_memory.md R48, R52, R53; 70_reset_and_hazards.md R173). -/
def State.readLoc (s : State) : Location → Word × State
  | .id => (idValue, s)
  | .param => (s.paramWord, s)
  | .ctrl => (0, s)
  | .cmd => (s.cmd, s)
  | .status => (s.statusWord, s)
  | .irqEn => (bitWord s.doneEn, s)
  | .irqPend => (bitWord s.donePend, s)
  | .reserved => (0, s)
  | .bigWord r i =>
    if s.nwords ≤ i then (0, s)
    else if s.busy then (Config.busyRead s.draws, { s with draws := s.draws + 1 })
    else (wordAt (s.reg r) i, s)

/-- A write of CTRL: bit 0 is the soft reset, which also clears OVR, and bit 1 clears OVR (10_state.md R29). -/
def State.writeCtrl (s : State) (v : Word) : State :=
  if v.getLsbD 0 then s.blockReset else if v.getLsbD 1 then { s with ovr := false } else s

/-- A write of CMD: acceptance, or a dropped write that sets OVR (10_state.md R30, 70_reset_and_hazards.md R171). -/
def State.writeCmd (s : State) (v : Word) : State :=
  if s.busy then { s with ovr := true } else s.accept v

/-- A write of word i of a big register: ignored for i >= K, dropped with OVR while a command runs
(20_memory.md R48, 70_reset_and_hazards.md R172). -/
def State.writeBigWord (s : State) (r : RegIdx) (i : Nat) (v : Word) : State :=
  if s.nwords ≤ i then s
  else if s.busy then { s with ovr := true }
  else s.setReg r (setWordAt (s.reg r) i v)

/-- MmioWrite of a location (10_state.md R24-R33, 20_memory.md R48, R52). -/
def State.writeLoc (s : State) (l : Location) (v : Word) : State :=
  match l with
  | .id | .param | .status | .reserved => s
  | .ctrl => s.writeCtrl v
  | .cmd => s.writeCmd v
  | .irqEn => { s with doneEn := v.getLsbD 0 }
  | .irqPend => if v.getLsbD 0 then { s with donePend := false } else s
  | .bigWord r i => s.writeBigWord r i v

/-- The Host sees something (70_reset_and_hazards.md R179). -/
def State.observe (s : State) (o : Observation) : State := { s with observed := o :: s.observed }

/-- An access that is no transaction: ACCESS_FAULT is recorded, no block state changes, and the platform answers what
BAD_ACCESS says (60_exceptions.md R147). -/
def State.recordBadAccess (s : State) (op : HostOp) : State :=
  { s with faultRecord := some .accessFault,
           observed := .badAccess op (Config.badAccess s.draws) :: s.observed, draws := s.draws + 1 }

/-- MmioRead of a width at an offset, its value observed by the Host (00_scope.md R15). -/
def State.hostRead (s : State) (width off : Nat) : State :=
  match locateAccess width off with
  | some l => (s.readLoc l).2.observe (.value off (s.readLoc l).1)
  | none => s.recordBadAccess (.read width off)

/-- MmioWrite of a width at an offset (00_scope.md R15). -/
def State.hostWrite (s : State) (width off : Nat) (v : Word) : State :=
  match locateAccess width off with
  | some l => s.writeLoc l v
  | none => s.recordBadAccess (.write width off v)

/-- One turn of a loop that reads STATUS until BUSY = 0: the line stays next while BUSY was 1 (00_scope.md R18). -/
def State.hostPoll (s : State) (line : HostOp) : State :=
  let t := s.hostRead 32 0x014
  if s.statusWord.getLsbD 0 then { t with hostOps := line :: t.hostOps } else t

/-- What a Host finds in a STATUS word: OVR is s[3], the error code s[7:4] (70_reset_and_hazards.md R174). -/
def verdictOf (w : Word) : Verdict := { overrun := w.getLsbD 3, error := w.extractLsb' 4 4 }

/-- Neither check of R174 failed. -/
def Verdict.passed (v : Verdict) : Bool := !v.overrun && v.error == 0

/-- The STATUS check of the driver protocol (70_reset_and_hazards.md R174; log entry 24). -/
def State.hostCheck (s : State) (skip : Nat) : State :=
  let v := verdictOf s.statusWord
  let t := (s.hostRead 32 0x014).observe (.verdict v)
  if v.passed then t else { t with hostOps := t.hostOps.drop skip }

/-- One step of the Host: its next line, if it has one (10_state.md R20). While it waits for irq and irq is 0, it makes
no transaction. -/
def State.hostTurn (s : State) : State :=
  match s.hostOps with
  | [] => s
  | op :: rest =>
    let t : State := { s with hostOps := rest }
    match op with
    | .read width off => t.hostRead width off
    | .write width off v => t.hostWrite width off v
    | .wait => t.hostPoll .wait
    | .waitIrq => if s.irq then t.hostPoll .waitIrq else s
    | .check skip => t.hostCheck skip

end Sys2Proof.Machine
end

