-- ==== Sys2Proof/Machine/Step.lean ====
section
/-! DEFINITION. One step of the model: one turn of one agent (10_state.md R20, 60_exceptions.md R152). -/
namespace Sys2Proof.Machine

/-- One turn of an agent (10_state.md R20; the reset input, 70_reset_and_hazards.md R164). -/
def takeTurn (t : Turn) (s : State) : Host.Outcome State Fault Refusal :=
  match t with
  | .host => .next s.hostTurn
  | .engine => engineTurn s
  | .resetPin => .next s.blockReset

/-- One step: the next turn of the schedule; with no turn left, the completion that is owed while BUSY = 1, otherwise
the Host (70_reset_and_hazards.md R178; log entry 5). -/
def step (s : State) : Host.Outcome State Fault Refusal :=
  match s.schedule with
  | t :: rest => takeTurn t { s with schedule := rest }
  | [] => if s.busy then takeTurn .engine s else takeTurn .host s

/-- The state in which the next step completes the command word `w`: the word accepted as a Host write of CMD accepts
it, and the Engine's turn next (log entry 7). -/
def State.withFetchWord (s : State) (nbits w : Nat) : State :=
  let t := s.accept (BitVec.ofNat 32 (w % 2 ^ nbits))
  { t with schedule := if s.schedule = [] then [] else .engine :: s.schedule }

end Sys2Proof.Machine
end

