-- ==== Sys2Proof/Machine/Assembler.lean ====
section
/-! DEFINITION. The assembler syntax of the command set and its pseudo-instructions (30_encoding.md R78, R79). The block never sees it; only the words it makes. -/
namespace Sys2Proof.Machine

/-- `MODSQR rd, rs, rn` (30_encoding.md R79). -/
def modsqr (rd rs rn : RegIdx) : Instr := .modmul rd rs rs rn

/-- `MONTSQR rd, rs, rn` (30_encoding.md R79). -/
def montsqr (rd rs rn : RegIdx) : Instr := .montmul rd rs rs rn

/-- `RSACRYPT rd, rs, re, rn` (30_encoding.md R79). -/
def rsacrypt (rd rs re rn : RegIdx) : Instr := .modexp rd rs re rn

/-- A register operand, in lower case (30_encoding.md R78). -/
def regOfName : List Char → Option RegIdx
  | ['r', '0'] => some 0
  | ['r', '1'] => some 1
  | ['r', '2'] => some 2
  | ['r', '3'] => some 3
  | ['r', '4'] => some 4
  | ['r', '5'] => some 5
  | ['r', '6'] => some 6
  | ['r', '7'] => some 7
  | ['k', 'n'] => some 8
  | ['k', 'e'] => some 9
  | ['k', 'd'] => some 10
  | _ => none

/-- The fields between commas. -/
def splitCommas : List Char → List (List Char)
  | [] => [[]]
  | c :: cs =>
    match splitCommas cs with
    | [] => [[c]]
    | f :: fs => if c = ',' then [] :: f :: fs else (c :: f) :: fs

/-- A mnemonic with its operands, destinations first (30_encoding.md R69, R78), pseudo-instructions among them (R79). -/
def instrOf (mnemonic : List Char) (ops : List RegIdx) : Option Instr :=
  match mnemonic, ops with
  | ['n', 'o', 'p'], [] => some .nop
  | ['m', 'o', 'v'], [rd, rs1] => some (.mov rd rs1)
  | ['g', 'c', 'd'], [rd, rs1, rs2] => some (.gcd rd rs1 rs2)
  | ['x', 'g', 'c', 'd'], [rd, rx, ry, rs1, rs2] => some (.xgcd rd rx ry rs1 rs2)
  | ['i', 'n', 'v'], [rd, rs1, rs2] => some (.inv rd rs1 rs2)
  | ['m', 'o', 'd', 'r', 'e', 'd'], [rd, rs1, rs2] => some (.modred rd rs1 rs2)
  | ['m', 'o', 'd', 'm', 'u', 'l'], [rd, rs1, rs2, rs3] => some (.modmul rd rs1 rs2 rs3)
  | ['m', 'o', 'n', 't', 'm', 'u', 'l'], [rd, rs1, rs2, rs3] => some (.montmul rd rs1 rs2 rs3)
  | ['m', 'o', 'd', 'e', 'x', 'p'], [rd, rs1, rs2, rs3] => some (.modexp rd rs1 rs2 rs3)
  | ['r', 's', 'a', 'e', 'n', 'c'], [rd, rs1] => some (.rsaenc rd rs1)
  | ['r', 's', 'a', 'd', 'e', 'c'], [rd, rs1] => some (.rsadec rd rs1)
  | ['m', 'o', 'd', 's', 'q', 'r'], [rd, rs, rn] => some (modsqr rd rs rn)
  | ['m', 'o', 'n', 't', 's', 'q', 'r'], [rd, rs, rn] => some (montsqr rd rs rn)
  | ['r', 's', 'a', 'c', 'r', 'y', 'p', 't'], [rd, rs, re, rn] => some (rsacrypt rd rs re rn)
  | _, _ => none

/-- One assembly line: a mnemonic, then operands separated by commas, case-insensitive (30_encoding.md R78). The first
space ends the mnemonic and other spaces are skipped: DESIGN CHOICE, log entry 21. -/
def assemble (line : List Char) : Option Instr :=
  let lower := line.map Char.toLower
  let mnemonic := lower.takeWhile (· != ' ')
  let rest := (lower.dropWhile (· != ' ')).filter (· != ' ')
  if rest = [] then instrOf mnemonic []
  else ((splitCommas rest).mapM regOfName).bind (instrOf mnemonic)

end Sys2Proof.Machine
end

