-- ==== Sys2Proof/Machine/HostProgram.lean ====
section
/-! DEFINITION. The lines of a Host program as the transactions they perform (00_scope.md R18). -/
namespace Sys2Proof.Machine

/-- `WR off, v` (00_scope.md R18). -/
def hostWr (off : Nat) (v : Word) : HostOp := .write 32 off v

/-- `RD off` (00_scope.md R18). -/
def hostRd (off : Nat) : HostOp := .read 32 off

/-- `WRB reg, v` on an instance with K words a register (00_scope.md R18). -/
def wrb (k : Nat) (r : RegIdx) (v : Nat) : List HostOp :=
  (List.range k).map (fun i => hostWr (bigOffset r i) (wordAt v i))

/-- `RDB reg` on an instance with K words a register (00_scope.md R18). -/
def rdb (k : Nat) (r : RegIdx) : List HostOp := (List.range k).map (fun i => hostRd (bigOffset r i))

/-- The value `RDB` assembles: the sum of word_i * 2^(32i) (00_scope.md R18). -/
def assembleWords : List Word → Nat
  | [] => 0
  | w :: ws => w.toNat + 2 ^ 32 * assembleWords ws

/-- `ISSUE command`: the command's word, written to CMD (00_scope.md R18). -/
def issue (i : Instr) : HostOp := hostWr 0x010 (encode i)

/-- The driver protocol for one command, polling or with the interrupt: wait until idle, write the operands, issue, wait
for the completion, check STATUS, read the destinations, acknowledge the interrupt if it is used. On a failed check the
destinations are not read (70_reset_and_hazards.md R174; log entry 24). -/
def driver (irq : Bool) (k : Nat) (operands : List (RegIdx × Nat)) (i : Instr) : List HostOp :=
  let results := i.dests.flatMap (rdb k)
  .wait :: operands.flatMap (fun p => wrb k p.1 p.2)
    ++ [issue i, if irq then .waitIrq else .wait, .check results.length]
    ++ results ++ if irq then [hostWr 0x01C 1] else []

/-- The initialisation sequence with the interrupt enabled: soft reset, read ID and PARAM, enable, acknowledge
(70_reset_and_hazards.md R169). -/
def hostInit : List HostOp :=
  [hostWr 0x008 1, hostRd 0x000, hostRd 0x004, hostWr 0x018 1, hostWr 0x01C 1]

/-- The state with a Host program still to run (log entry 7). -/
def State.withHost (s : State) (ops : List HostOp) : State := { s with hostOps := ops }

end Sys2Proof.Machine
end

