-- ==== Sys2Proof/Safety.lean ====
section
/-! DEFINITION. What a well-formed state, a good run and its end are, in the terms the statements use (10_state.md R31; 70_reset_and_hazards.md R174, R179, R181). -/
namespace Sys2Proof.Machine

/-- Every value of the latch. -/
def Latch.values (l : Latch) : List Nat := [l.rd, l.rs1, l.rs2, l.rs3x, l.ry, l.kn, l.ke, l.kd]

/-- The invariant of the block: K is in range (00_scope.md R6), every big register and every latched value is below
2^W (R12), and while BUSY = 1, DONE = 0 and ERRCODE = 0 (10_state.md R31). -/
abbrev State.Wf (s : State) : Prop :=
  (1 ≤ s.nwords ∧ s.nwords ≤ 128) ∧
  (∀ v ∈ s.x.toList, v < 2 ^ s.width) ∧
  (∀ v ∈ s.latch.values, v < 2 ^ s.width) ∧
  (s.busy = true → s.done = false ∧ s.errcode = .ok)

/-- While a command is in flight, CMD is the latched word and every latched value is still the value of its register
(10_state.md R37: reading the sources at completion would give the same result). -/
abbrev State.LatchCoherent (s : State) : Prop :=
  s.busy = true →
    s.cmd = s.latch.word ∧ s.latch.kn = s.reg regKN ∧ s.latch.ke = s.reg regKE ∧ s.latch.kd = s.reg regKD ∧
    ∀ f ∈ usedFields s.latch.word, namesReg (f.of s.latch.word) = true →
      s.latch.val f = s.reg (f.of s.latch.word)

/-- No ACCESS_FAULT is recorded (60_exceptions.md R147). -/
abbrev State.NoAccessFault (s : State) : Prop := s.faultRecord = none

/-- A good end of a run: the Host program has been executed, no completion is owed, no ACCESS_FAULT is recorded
(70_reset_and_hazards.md R179). -/
abbrev State.GoodFinal (s : State) : Prop := s.hostOps = [] ∧ s.busy = false ∧ s.NoAccessFault

/-- The key and operand registers hold the values a precondition names. -/
abbrev State.Holds (s : State) (values : List (RegIdx × Nat)) : Prop :=
  ∀ p ∈ values, namesReg p.1 = true ∧ s.reg p.1 = p.2

/-- The five launch premises a claim about a Host program names: idle, OVR = 0, no ACCESS_FAULT, the K the program
assumes, and the key and operand registers at the values the precondition names (70_reset_and_hazards.md R181). -/
abbrev State.Launch (s : State) (k : Nat) (values : List (RegIdx × Nat)) : Prop :=
  s.busy = false ∧ s.ovr = false ∧ s.NoAccessFault ∧ s.nwords = k ∧ s.Holds values

/-- The turn that the next step takes (10_state.md R20; log entry 5). -/
def State.nextTurn (s : State) : Turn :=
  match s.schedule with
  | t :: _ => t
  | [] => if s.busy then .engine else .host

/-- What every completion leaves, the big registers apart: ERRCODE the code, BUSY 0, DONE 1, DONE_PEND 1, and nothing
else changed (10_state.md R38, 60_exceptions.md R146). -/
def State.doneWith (s : State) (c : ErrCode) : State :=
  { s with errcode := c, busy := false, done := true, donePend := true }

/-- The outcome is the state in which the command has committed: completion's fields with ERRCODE = OK, every big
register r holding `val r`, and nothing else changed. -/
def State.CommitsTo (s : State) (o : Host.Outcome State Fault Refusal) (val : RegIdx → Nat) : Prop :=
  ∃ t : State, o = .next t ∧ t = { s.doneWith .ok with x := t.x } ∧ ∀ r, namesReg r = true → t.reg r = val r

/-- The big registers with the value v at the destination and the others as they were. -/
def State.withDest (s : State) (rd : RegIdx) (v : Nat) : RegIdx → Nat := fun r => if r = rd then v else s.reg r

/-- The block's own state (10_state.md R42) is the same in both states; the fault record, the inputs and the
observation of the run are not compared. -/
def State.SameBlock (s t : State) : Prop :=
  t.x = s.x ∧ t.nwords = s.nwords ∧ t.cmd = s.cmd ∧ t.busy = s.busy ∧ t.done = s.done ∧ t.ovr = s.ovr ∧
  t.errcode = s.errcode ∧ t.doneEn = s.doneEn ∧ t.donePend = s.donePend ∧ t.latch = s.latch

/-- The block is in its reset state (10_state.md R42): resetting it again changes nothing. -/
def State.BlockIsReset (s : State) : Prop := s.blockReset = s

/-- The state after n steps, a stop staying where it is. Every step answers a next state, so this follows the run. -/
def stepN : Nat → State → State
  | 0, s => s
  | n + 1, s =>
    match step s with
    | .next t => stepN n t
    | .fault _ => s
    | .refused _ => s

end Sys2Proof.Machine
end

