-- ==== Sys2Proof/Certificates/Slice0/Obligations.lean ====
section
/-! DEFINITION. The statements about the RSA-MMA block, each from a numbered rule of spec/. -/
open Sys2Proof Sys2Proof.Machine

/-! ## Encoding -/

/-- The opcode table as data: match, mask, and the lowest bit of each used register field (30_encoding.md R66, R69;
spec/opcode_table.json). -/
def Sys2Proof.Claims.commandRows : List (Word × Word × List Nat) :=
  [(0x00, 0xFFFFFFFF, []), (0x01, 0xFFFF00FF, [8, 12]), (0x10, 0xFFF000FF, [8, 12, 16]),
   (0x11, 0xF00000FF, [8, 12, 16, 20, 24]), (0x12, 0xFFF000FF, [8, 12, 16]), (0x20, 0xFFF000FF, [8, 12, 16]),
   (0x21, 0xFF0000FF, [8, 12, 16, 20]), (0x22, 0xFF0000FF, [8, 12, 16, 20]), (0x30, 0xFF0000FF, [8, 12, 16, 20]),
   (0x40, 0xFFFF00FF, [8, 12]), (0x41, 0xFFFF00FF, [8, 12])]

/-- A word is a legal command when a row of the table matches it and every used field is 0..10
(30_encoding.md R68, R70, R71). -/
def Sys2Proof.Claims.Legal (w : Word) : Prop :=
  ∃ row ∈ Claims.commandRows, w &&& row.2.1 = row.1 ∧ ∀ lo ∈ row.2.2, (w.extractLsb' lo 4).toNat ≤ 10

/-- The encoding examples of 30_encoding.md R76 decode to the commands they stand for. -/
def Obligations.EncodingExamplesDecode : Prop :=
  decode 0x00000000 = .ok .nop ∧
  decode 0x00000101 = .ok (.mov 1 0) ∧
  decode 0x00010210 = .ok (.gcd 2 0 1) ∧
  decode 0x04310211 = .ok (.xgcd 2 3 4 0 1) ∧
  decode 0x00019A12 = .ok (.inv 10 9 1) ∧
  decode 0x00080120 = .ok (.modred 1 0 8) ∧
  decode 0x00210321 = .ok (.modmul 3 0 1 2) ∧
  decode 0x00210322 = .ok (.montmul 3 0 1 2) ∧
  decode 0x00890330 = .ok (.modexp 3 0 9 8) ∧
  decode 0x00000140 = .ok (.rsaenc 1 0) ∧
  decode 0x00001241 = .ok (.rsadec 2 1)

/-- Decoding the encoding of a well-formed command gives the command back, for every command and every operand
(30_encoding.md R72, R75). -/
def Obligations.EveryLegalCommandRoundTrips : Prop :=
  ∀ i : Instr, i.wf = true → decode (encode i) = .ok i

/-- A word that decodes is the encoding of the command it decodes to, which is well formed (30_encoding.md R75). -/
def Obligations.DecodedWordsReencode : Prop :=
  ∀ (w : Word) (i : Instr), decode w = .ok i → i.wf = true ∧ encode i = w

/-- A word decodes exactly when a row of the opcode table matches it and its used fields name registers
(30_encoding.md R68, R70, R71, R72). -/
def Obligations.DecodableWordsAreTheTables : Prop :=
  ∀ w : Word, (∃ i, decode w = .ok i) ↔ Claims.Legal w

/-- 60_exceptions.md R142: an ILLEGAL word, one with an unassigned OP, a set must-be-zero bit or a reserved index in a
used field, is accepted with BUSY set and CMD holding it, then completes with ERRCODE = 1 and changes no big
register. -/
def Obligations.IllegalWordIsAcceptedThenReported : Prop :=
  ∀ (s : State) (w : Word), s.busy = false → ¬ Claims.Legal w →
    (s.hostWrite 32 0x010 w).busy = true ∧ (s.hostWrite 32 0x010 w).cmd = w ∧
    ∃ t, engineTurn (s.hostWrite 32 0x010 w) = .next t ∧ t.errcode.code = 1 ∧ t.busy = false ∧ t.done = true ∧
      t.cmd = w ∧ t.x = s.x

/-! ## Acceptance, completion and the step -/

/-- 10_state.md R37: a write of CMD while idle latches the word, the value of every register field whose index is 0..10
and the key registers, clears DONE and ERRCODE, sets BUSY, and changes nothing else. -/
def Obligations.CmdWriteLatchesAndStarts : Prop :=
  ∀ (s : State) (v : Word), s.busy = false →
    ∃ t, s.hostWrite 32 0x010 v = t ∧
      t = { s with cmd := v, latch := t.latch, done := false, errcode := .ok, busy := true } ∧
      t.latch.word = v ∧ t.latch.kn = s.reg regKN ∧ t.latch.ke = s.reg regKE ∧ t.latch.kd = s.reg regKD ∧
      ∀ f ∈ usedFields v, (f.of v).toNat ≤ 10 → t.latch.val f = s.reg (f.of v)

/-- Completion of any latched word records its outcome: BUSY 0, DONE 1, DONE_PEND 1, ERR exactly when the code is not
OK; on an error no big register changes; everything else stays (10_state.md R38, 60_exceptions.md R146). -/
def Obligations.CompletionRecordsOutcome : Prop :=
  ∀ s : State, s.busy = true →
    ∃ t, engineTurn s = .next t ∧
      t = { s with x := t.x, errcode := t.errcode, busy := false, done := true, donePend := true } ∧
      (t.err = true ↔ t.errcode ≠ .ok) ∧ (t.errcode ≠ .ok → t.x = s.x)

/-- A step in which the Engine moves is `exec` of the latched word's command: with an empty schedule on the state as
it is, and on an Engine turn of the schedule with that turn taken off (10_state.md R38). That an empty schedule gives
a busy Engine the turn is the model's choice (log entry 5). -/
def Obligations.StepRunsTheDecodedCommand : Prop :=
  ∀ (s : State) (i : Instr), s.busy = true → decode s.latch.word = .ok i →
    (s.schedule = [] → step s = exec i s) ∧
    ∀ rest, s.schedule = .engine :: rest → step s = exec i { s with schedule := rest }

/-- Every step answers a next state: no word, no access and no turn stops the block (60_exceptions.md R142, R147,
R153). -/
def Obligations.EveryStepAnswersANextState : Prop :=
  ∀ s : State, ∃ t, step s = .next t

/-- An issued command runs: two steps from an idle state whose Host issues a well-formed command accept its word and
then complete it (00_scope.md R18, 10_state.md R37, R38). That the Host moves first while idle and the Engine while
busy, with an empty schedule, is the model's choice (log entry 5). -/
def Obligations.IssuedCommandRuns : Prop :=
  ∀ (s : State) (i : Instr) (rest : List HostOp), i.wf = true → s.busy = false → s.schedule = [] →
    s.hostOps = issue i :: rest →
    ∃ t, step s = .next t ∧ t = ({ s with hostOps := rest } : State).accept (encode i) ∧ step t = exec i t

/-! ## The commands -/

/-- NOP commits no write: completion's fields and nothing else (40_control.md R81). -/
def Obligations.NopCommitsNothing : Prop :=
  ∀ s : State, s.CommitsTo (exec .nop s) s.reg

/-- MOV writes the latched source to its destination (40_control.md R82). -/
def Obligations.MovCopiesItsSource : Prop :=
  ∀ (s : State) (rd rs1 : RegIdx), namesReg rd = true → namesReg rs1 = true →
    s.CommitsTo (exec (.mov rd rs1) s) (s.withDest rd s.latch.rs1)

/-- GCD writes the greatest common divisor of its latched sources, zeros included (41_gcd_inverse.md R84). -/
def Obligations.GcdWritesTheGcd : Prop :=
  ∀ (s : State) (rd rs1 rs2 : RegIdx), namesReg rd = true → namesReg rs1 = true → namesReg rs2 = true →
    s.CommitsTo (exec (.gcd rd rs1 rs2) s) (s.withDest rd (Nat.gcd s.latch.rs1 s.latch.rs2))

/-- 41_gcd_inverse.md R85: GCD rd, ra, rb and GCD rd, rb, ra, issued on the same idle state, write the same value. -/
def Obligations.GcdSourceOrderDoesNotMatter : Prop :=
  ∀ (s : State) (rd ra rb : RegIdx), s.busy = false →
    namesReg rd = true → namesReg ra = true → namesReg rb = true →
    ∃ t u, engineTurn (s.accept (encode (.gcd rd ra rb))) = .next t ∧
      engineTurn (s.accept (encode (.gcd rd rb ra))) = .next u ∧ t.x = u.x ∧ t.reg rd = u.reg rd

/-- 41_gcd_inverse.md R89: XGCD writes g to RD, then the pattern of s to RX, then the pattern of t to RY, so that of two
equal destinations the later write stays. -/
def Obligations.XgcdWritesInOrder : Prop :=
  ∀ (s : State) (rd rx ry rs1 rs2 : RegIdx), (Instr.xgcd rd rx ry rs1 rs2).wf = true →
    s.CommitsTo (exec (.xgcd rd rx ry rs1 rs2) s) (fun r =>
      if r = ry then tcW s.width (egcd s.latch.rs1 s.latch.rs2).2.2
      else if r = rx then tcW s.width (egcd s.latch.rs1 s.latch.rs2).2.1
      else if r = rd then (egcd s.latch.rs1 s.latch.rs2).1
      else s.reg r)

/-- In every well-formed state XGCD with three different destinations leaves g = gcd(a, b) and a pair (s, t), read as
two's complement, with a*s + b*t = g as integers: the coefficients fit and nothing is truncated (41_gcd_inverse.md
R86, R88). The bounds of R88 are a clause of the conclusion: the patterns read back as the integers of EGCD. -/
def Obligations.XgcdLeavesAnExactBezoutPair : Prop :=
  ∀ (s : State) (rd rx ry rs1 rs2 : RegIdx), s.Wf → (Instr.xgcd rd rx ry rs1 rs2).wf = true →
    rd ≠ rx → rd ≠ ry → rx ≠ ry →
    ∃ t, exec (.xgcd rd rx ry rs1 rs2) s = .next t ∧ t.errcode = .ok ∧
      t.reg rd = Nat.gcd s.latch.rs1 s.latch.rs2 ∧
      sextW s.width (t.reg rx) = (egcd s.latch.rs1 s.latch.rs2).2.1 ∧
      sextW s.width (t.reg ry) = (egcd s.latch.rs1 s.latch.rs2).2.2 ∧
      (s.latch.rs1 : Int) * sextW s.width (t.reg rx) + s.latch.rs2 * sextW s.width (t.reg ry) = t.reg rd

/-- EGCD's pair is the one Euclid's recursion gives: (a, 1, 0) for b = 0, and otherwise the pair of (b, a mod b)
carried back (41_gcd_inverse.md R87). -/
def Obligations.EgcdFollowsEuclid : Prop :=
  (∀ a : Nat, egcd a 0 = (a, 1, 0)) ∧
  ∀ a b : Nat, b ≠ 0 →
    egcd a b = ((egcd b (a % b)).1, (egcd b (a % b)).2.2,
      (egcd b (a % b)).2.1 - (a / b : Nat) * (egcd b (a % b)).2.2)

/-- INV of a value coprime to a non-zero modulus writes the unique u in [0, m) with a*u = 1 (mod m)
(41_gcd_inverse.md R90, R91). -/
def Obligations.InvWritesTheUniqueInverse : Prop :=
  ∀ (s : State) (rd rs1 rs2 : RegIdx), namesReg rd = true → namesReg rs1 = true → namesReg rs2 = true →
    s.latch.rs2 ≠ 0 → Nat.gcd s.latch.rs1 s.latch.rs2 = 1 →
    ∃ u, u < s.latch.rs2 ∧ s.latch.rs1 * u % s.latch.rs2 = 1 % s.latch.rs2 ∧
      (∀ v, v < s.latch.rs2 → s.latch.rs1 * v % s.latch.rs2 = 1 % s.latch.rs2 → v = u) ∧
      s.CommitsTo (exec (.inv rd rs1 rs2) s) (s.withDest rd u)

/-- INV of a value not coprime to a non-zero modulus reports NOTINV and writes nothing (41_gcd_inverse.md R90,
60_exceptions.md R145). -/
def Obligations.InvReportsNotInvertible : Prop :=
  ∀ (s : State) (rd rs1 rs2 : RegIdx), namesReg rd = true → namesReg rs1 = true → namesReg rs2 = true →
    s.latch.rs2 ≠ 0 → Nat.gcd s.latch.rs1 s.latch.rs2 ≠ 1 →
    exec (.inv rd rs1 rs2) s = .next (s.doneWith .notinv)

/-- A zero modulus makes every command with a modulus report MODZERO, before its other checks, and write nothing: RS2
for INV and MODRED, RS3 for MODMUL, MONTMUL and MODEXP, latched KN for RSAENC and RSADEC (60_exceptions.md R143,
R148). -/
def Obligations.ZeroModulusIsReported : Prop :=
  ∀ (s : State) (rd rs1 rs2 rs3 : RegIdx), namesReg rd = true → namesReg rs1 = true → namesReg rs2 = true →
    namesReg rs3 = true →
    (s.latch.rs2 = 0 → exec (.inv rd rs1 rs2) s = .next (s.doneWith .modzero) ∧
      exec (.modred rd rs1 rs2) s = .next (s.doneWith .modzero)) ∧
    (s.latch.rs3x = 0 → exec (.modmul rd rs1 rs2 rs3) s = .next (s.doneWith .modzero) ∧
      exec (.montmul rd rs1 rs2 rs3) s = .next (s.doneWith .modzero) ∧
      exec (.modexp rd rs1 rs2 rs3) s = .next (s.doneWith .modzero)) ∧
    (s.latch.kn = 0 → exec (.rsaenc rd rs1) s = .next (s.doneWith .modzero) ∧
      exec (.rsadec rd rs1) s = .next (s.doneWith .modzero))

/-- MODRED writes a mod n for a non-zero modulus (42_modmul.md R93). -/
def Obligations.ModredWritesTheResidue : Prop :=
  ∀ (s : State) (rd rs1 rs2 : RegIdx), namesReg rd = true → namesReg rs1 = true → namesReg rs2 = true →
    s.latch.rs2 ≠ 0 → s.CommitsTo (exec (.modred rd rs1 rs2) s) (s.withDest rd (s.latch.rs1 % s.latch.rs2))

/-- MODMUL writes the exact product reduced, which is also the reduced product of the residues
(42_modmul.md R95, R96). -/
def Obligations.ModmulWritesTheExactProduct : Prop :=
  ∀ (s : State) (rd rs1 rs2 rs3 : RegIdx), (Instr.modmul rd rs1 rs2 rs3).wf = true → s.latch.rs3x ≠ 0 →
    s.CommitsTo (exec (.modmul rd rs1 rs2 rs3) s) (s.withDest rd (s.latch.rs1 * s.latch.rs2 % s.latch.rs3x)) ∧
    s.latch.rs1 * s.latch.rs2 % s.latch.rs3x =
      s.latch.rs1 % s.latch.rs3x * (s.latch.rs2 % s.latch.rs3x) % s.latch.rs3x

/-- 42_modmul.md R97: for an odd modulus Rinv(n) is the unique value in [0, n) with (2^W * Rinv(n)) mod n = 1 mod n, and
Rinv(1) = 0. -/
def Obligations.MontgomeryRadixHasAUniqueInverse : Prop :=
  (∀ w n : Nat, n % 2 = 1 →
    rinv w n < n ∧ 2 ^ w * rinv w n % n = 1 % n ∧ ∀ v, v < n → 2 ^ w * v % n = 1 % n → v = rinv w n) ∧
  ∀ w : Nat, rinv w 1 = 0

/-- MONTMUL with an odd modulus writes the fully reduced v with v * 2^W = a * b (mod n), whatever a and b
(42_modmul.md R98). -/
def Obligations.MontmulWritesTheMontgomeryProduct : Prop :=
  ∀ (s : State) (rd rs1 rs2 rs3 : RegIdx), (Instr.montmul rd rs1 rs2 rs3).wf = true → s.latch.rs3x % 2 = 1 →
    ∃ v, v = s.latch.rs1 * s.latch.rs2 * rinv s.width s.latch.rs3x % s.latch.rs3x ∧ v < s.latch.rs3x ∧
      v * 2 ^ s.width % s.latch.rs3x = s.latch.rs1 * s.latch.rs2 % s.latch.rs3x ∧
      s.CommitsTo (exec (.montmul rd rs1 rs2 rs3) s) (s.withDest rd v)

/-- 60_exceptions.md R144: MONTMUL with a non-zero even modulus reports EVENMOD and writes nothing; the radix 2^W of the
block (K >= 1) has no inverse modulo it. -/
def Obligations.EvenMontgomeryModulusIsReported : Prop :=
  ∀ (s : State) (rd rs1 rs2 rs3 : RegIdx), (Instr.montmul rd rs1 rs2 rs3).wf = true → s.latch.rs3x ≠ 0 →
    s.latch.rs3x % 2 = 0 →
    exec (.montmul rd rs1 rs2 rs3) s = .next (s.doneWith .evenmod) ∧
      (1 ≤ s.nwords → ∀ v, 2 ^ s.width * v % s.latch.rs3x ≠ 1 % s.latch.rs3x)

/-- The Montgomery identities, for the value M(a, b) = a*b*Rinv(n) mod n that MONTMUL writes and an odd modulus:
products stay in the domain, and the ways into and out of it (42_modmul.md R99). -/
def Obligations.MontgomeryIdentities : Prop :=
  ∀ w n : Nat, n % 2 = 1 →
    (∀ a b, (a * 2 ^ w % n) * (b * 2 ^ w % n) * rinv w n % n = a * b * 2 ^ w % n) ∧
    (∀ a, a * ((2 ^ w) ^ 2 % n) * rinv w n % n = a * 2 ^ w % n) ∧
    (∀ a, (a * 2 ^ w % n) * 1 * rinv w n % n = a % n) ∧
    (∀ a b, a * b * rinv w n % n = (a * b % n) * rinv w n % n)

/-- MODEXP writes the exact power reduced, for every base, exponent and non-zero modulus, 0^0 = 1 and even moduli
included (43_modexp.md R103, R104). -/
def Obligations.ModexpWritesTheExactPower : Prop :=
  ∀ (s : State) (rd rs1 rs2 rs3 : RegIdx), (Instr.modexp rd rs1 rs2 rs3).wf = true → s.latch.rs3x ≠ 0 →
    s.CommitsTo (exec (.modexp rd rs1 rs2 rs3) s) (s.withDest rd (s.latch.rs1 ^ s.latch.rs2 % s.latch.rs3x))

/-- RSAENC writes B^KE mod KN for a block below the latched KN, and reports RANGE, writing nothing, for a block not
below a non-zero KN (44_rsa_cipher.md R108). -/
def Obligations.RsaencEncryptsOrReportsRange : Prop :=
  ∀ (s : State) (rd rs1 : RegIdx), namesReg rd = true → namesReg rs1 = true →
    (s.latch.rs1 < s.latch.kn →
      s.CommitsTo (exec (.rsaenc rd rs1) s) (s.withDest rd (s.latch.rs1 ^ s.latch.ke % s.latch.kn))) ∧
    (s.latch.kn ≠ 0 → s.latch.kn ≤ s.latch.rs1 → exec (.rsaenc rd rs1) s = .next (s.doneWith .range))

/-- RSADEC writes C^KD mod KN for a block below the latched KN, and reports RANGE, writing nothing, for a block not
below a non-zero KN (44_rsa_cipher.md R110). -/
def Obligations.RsadecDecryptsOrReportsRange : Prop :=
  ∀ (s : State) (rd rs1 : RegIdx), namesReg rd = true → namesReg rs1 = true →
    (s.latch.rs1 < s.latch.kn →
      s.CommitsTo (exec (.rsadec rd rs1) s) (s.withDest rd (s.latch.rs1 ^ s.latch.kd % s.latch.kn))) ∧
    (s.latch.kn ≠ 0 → s.latch.kn ≤ s.latch.rs1 → exec (.rsadec rd rs1) s = .next (s.doneWith .range))

/-- 44_rsa_cipher.md R113: issued on the same idle state, for a block below KN, RSAENC writes what MODEXP with KE and KN
writes, and RSADEC what MODEXP with KD and KN writes. -/
def Obligations.RsaCommandsAreModexpWithTheKeys : Prop :=
  ∀ (s : State) (rd rs1 : RegIdx), s.busy = false → namesReg rd = true → namesReg rs1 = true →
    1 ≤ s.reg regKN → s.reg rs1 < s.reg regKN →
    (∃ t u, engineTurn (s.accept (encode (.rsaenc rd rs1))) = .next t ∧
      engineTurn (s.accept (encode (.modexp rd rs1 regKE regKN))) = .next u ∧ t.errcode = .ok ∧ t.x = u.x) ∧
    (∃ t u, engineTurn (s.accept (encode (.rsadec rd rs1))) = .next t ∧
      engineTurn (s.accept (encode (.modexp rd rs1 regKD regKN))) = .next u ∧ t.errcode = .ok ∧ t.x = u.x)

/-- RSA is correct on the block: with KN = p*q for distinct primes and KE*KD = 1 (mod (p-1)(q-1)), a Host that issues
RSAENC of a block B < KN, to any register but KN and KD, and then RSADEC of the result finds B again
(44_rsa_cipher.md R112). The two commands are accepted and completed by four steps because the schedule is empty (log
entry 5). -/
def Obligations.RsaRoundTripRestoresTheBlock : Prop :=
  ∀ (s : State) (p q : Nat) (rd rs1 rd2 : RegIdx) (rest : List HostOp),
    p.Prime → q.Prime → p ≠ q →
    s.busy = false → s.schedule = [] → s.hostOps = issue (.rsaenc rd rs1) :: issue (.rsadec rd2 rd) :: rest →
    namesReg rd = true → rd ≠ regKN → rd ≠ regKD → namesReg rs1 = true → namesReg rd2 = true →
    s.reg regKN = p * q → s.reg regKE * s.reg regKD % ((p - 1) * (q - 1)) = 1 → s.reg rs1 < p * q →
    (stepN 4 s).reg rd2 = s.reg rs1 ∧ (stepN 4 s).errcode = .ok ∧ (stepN 4 s).busy = false ∧
      (stepN 4 s).hostOps = rest

/-- A command term with a reserved index in a used field completes as ILLEGAL, before any other error, and writes
nothing (30_encoding.md R70, 60_exceptions.md R148). The decoder gives no such term; exec is defined on it all the
same (log entry 11). -/
def Obligations.ReservedIndexIsIllegalFirst : Prop :=
  ∀ (i : Instr) (s : State), i.wf = false → exec i s = .next (s.doneWith .illegal)

/-- The codes a command can report (60_exceptions.md R149). -/
def Sys2Proof.Claims.possibleCodes : Instr → List ErrCode
  | .nop => [.ok, .illegal]
  | .mov _ _ => [.ok, .illegal]
  | .gcd _ _ _ => [.ok, .illegal]
  | .xgcd _ _ _ _ _ => [.ok, .illegal]
  | .inv _ _ _ => [.ok, .illegal, .modzero, .notinv]
  | .modred _ _ _ => [.ok, .illegal, .modzero]
  | .modmul _ _ _ _ => [.ok, .illegal, .modzero]
  | .montmul _ _ _ _ => [.ok, .illegal, .modzero, .evenmod]
  | .modexp _ _ _ _ => [.ok, .illegal, .modzero]
  | .rsaenc _ _ => [.ok, .illegal, .modzero, .range]
  | .rsadec _ _ => [.ok, .illegal, .modzero, .range]

/-- A command completes with no code but those listed for it (60_exceptions.md R149). -/
def Obligations.CommandsReportOnlyTheirListedErrors : Prop :=
  ∀ (i : Instr) (s : State), ∃ t, exec i s = .next t ∧ t.errcode ∈ Claims.possibleCodes i

/-- The frame of every command: completion's fields, the destinations on OK, and nothing else; on an error no big
register (10_state.md R34, R38; 40_control.md R83; 60_exceptions.md R146). -/
def Obligations.CommandsChangeOnlyTheirDestinations : Prop :=
  ∀ (i : Instr) (s t : State), exec i s = .next t →
    t = { s.doneWith t.errcode with x := t.x } ∧
    (∀ r, namesReg r = true → r ∉ i.dests → t.reg r = s.reg r) ∧
    (t.errcode ≠ .ok → t.x = s.x)

/-- The outcome of a command depends on LATCH and the width alone: two states that agree on them get the same code and
the same destination values (10_state.md R38, 40_control.md R83). -/
def Obligations.OutcomesDependOnTheLatchAlone : Prop :=
  ∀ (i : Instr) (s s' t t' : State), s.latch = s'.latch → s.nwords = s'.nwords →
    exec i s = .next t → exec i s' = .next t' →
    t.errcode = t'.errcode ∧
      (t.errcode = .ok → ∀ r ∈ i.dests, namesReg r = true → t.reg r = t'.reg r)

/-- 70_reset_and_hazards.md R170: on an idle block with every big register 0, whatever its other state, MOV and GCD write
0, XGCD writes (0, 1, 0), and every command with a modulus reports MODZERO. -/
def Obligations.CommandsOnResetValues : Prop :=
  ∀ s : State, s.busy = false → (∀ r, namesReg r = true → s.reg r = 0) → 1 ≤ s.nwords →
    (∀ i : Instr, i.wf = true → i.op ∈ [Op.mov, Op.gcd] →
      ∃ t, engineTurn (s.accept (encode i)) = .next t ∧ t.errcode = .ok ∧ t.x = s.x) ∧
    (∀ rd rx ry rs1 rs2 : RegIdx, (Instr.xgcd rd rx ry rs1 rs2).wf = true → rd ≠ rx → rd ≠ ry → rx ≠ ry →
      ∃ t, engineTurn (s.accept (encode (.xgcd rd rx ry rs1 rs2))) = .next t ∧ t.errcode = .ok ∧
        t.reg rd = 0 ∧ t.reg rx = 1 ∧ t.reg ry = 0) ∧
    (∀ i : Instr, i.wf = true → i.op ∉ [Op.nop, Op.mov, Op.gcd, Op.xgcd] →
      ∃ t, engineTurn (s.accept (encode i)) = .next t ∧ t.errcode = .modzero ∧ t.x = s.x)

/-! ## The register window -/

/-- 20_memory.md R48, while idle: word i < K of big register r reads as its bits [32i+31:32i], and a write replaces
them, so that they read back, and leaves the register's other words, the other registers and everything else; word
i >= K reads 0 and a write of it changes nothing. -/
def Obligations.BigRegisterWordsReadBack : Prop :=
  ∀ (s : State) (r : RegIdx) (i : Nat) (v : Word), s.busy = false → namesReg r = true → i < 128 →
    (i < s.nwords →
      s.hostRead 32 (0x400 + 0x200 * r.toNat + 4 * i) =
        s.observe (.value (0x400 + 0x200 * r.toNat + 4 * i) (BitVec.ofNat 32 (s.reg r >>> (32 * i)))) ∧
      ∃ t, s.hostWrite 32 (0x400 + 0x200 * r.toNat + 4 * i) v = t ∧ t = { s with x := t.x } ∧
        wordAt (t.reg r) i = v ∧ (∀ j, j ≠ i → wordAt (t.reg r) j = wordAt (s.reg r) j) ∧
        ∀ q, namesReg q = true → q ≠ r → t.reg q = s.reg q) ∧
    (s.nwords ≤ i →
      s.hostRead 32 (0x400 + 0x200 * r.toNat + 4 * i) =
        s.observe (.value (0x400 + 0x200 * r.toNat + 4 * i) 0) ∧
      s.hostWrite 32 (0x400 + 0x200 * r.toNat + 4 * i) v = s)

/-- WRB writes its value: K word writes on an idle well-formed state leave the W-bit value in the register and nothing
else changed (00_scope.md R18, 20_memory.md R48). The K writes arrive one after another because the schedule is empty
(log entry 5). -/
def Obligations.WrbWritesTheWholeRegister : Prop :=
  ∀ (s : State) (r : RegIdx) (v : Nat) (rest : List HostOp), s.Wf → s.busy = false → s.schedule = [] →
    namesReg r = true → v < 2 ^ s.width → s.hostOps = wrb s.nwords r v ++ rest →
    ∃ t, stepN s.nwords s = t ∧ t = { s with x := t.x, hostOps := rest } ∧
      ∀ q, namesReg q = true → t.reg q = s.withDest r v q

/-- 70_reset_and_hazards.md R171: a write of CMD while BUSY = 1 is dropped: CMD keeps its word, the running command is
unaffected, OVR is set, and nothing else changes. -/
def Obligations.BusyCmdWriteIsDropped : Prop :=
  ∀ (s : State) (v : Word), s.busy = true → s.hostWrite 32 0x010 v = { s with ovr := true }

/-- 70_reset_and_hazards.md R172: a write to word i < K of a big register while BUSY = 1 is dropped and sets OVR; a write
to a word i >= K is ignored and does not set OVR. -/
def Obligations.BusyRegisterWriteIsDropped : Prop :=
  ∀ (s : State) (r : RegIdx) (i : Nat) (v : Word), s.busy = true → namesReg r = true → i < 128 →
    (i < s.nwords → s.hostWrite 32 (0x400 + 0x200 * r.toNat + 4 * i) v = { s with ovr := true }) ∧
    (s.nwords ≤ i → s.hostWrite 32 (0x400 + 0x200 * r.toNat + 4 * i) v = s)

/-- A read of word i < K of a big register while BUSY = 1 returns a fresh draw and changes no register; a read of a
word i >= K returns 0 (70_reset_and_hazards.md R173). The draw is the free value `Config.busyRead` (log entry 8). -/
def Obligations.BusyRegisterReadIsADraw : Prop :=
  ∀ (s : State) (r : RegIdx) (i : Nat), s.busy = true → namesReg r = true → i < 128 →
    (i < s.nwords → s.hostRead 32 (0x400 + 0x200 * r.toNat + 4 * i) =
      { s with observed := .value (0x400 + 0x200 * r.toNat + 4 * i) (Config.busyRead s.draws) :: s.observed,
               draws := s.draws + 1 }) ∧
    (s.nwords ≤ i → s.hostRead 32 (0x400 + 0x200 * r.toNat + 4 * i) =
      s.observe (.value (0x400 + 0x200 * r.toNat + 4 * i) 0))

/-- 20_memory.md R52: offsets 0x00C, 0x020-0x3FC and 0x1A00-0x1FFC read as 0 and ignore writes, without fault, at all
times. -/
def Obligations.ReservedOffsetsReadZero : Prop :=
  ∀ (s : State) (off : Nat) (v : Word), off % 4 = 0 →
    (off = 0x00C ∨ (0x020 ≤ off ∧ off ≤ 0x3FC) ∨ (0x1A00 ≤ off ∧ off ≤ 0x1FFC)) →
    s.hostRead 32 off = s.observe (.value off 0) ∧ s.hostWrite 32 off v = s

/-- No read has a side effect on the block: every read of every offset, at every width, leaves the block's state
(20_memory.md R53; a bad access changes no block state either, R50). -/
def Obligations.ReadsChangeNoBlockState : Prop :=
  ∀ (s : State) (width off : Nat), s.SameBlock (s.hostRead width off)

/-- The control registers read as their fields: ID, PARAM, CTRL, CMD, STATUS, IRQ_EN, IRQ_PEND, each observed by the
Host and nothing else changed (10_state.md R24, R27-R33). -/
def Obligations.ControlRegistersReadTheirFields : Prop :=
  ∀ s : State,
    s.hostRead 32 0x000 = s.observe (.value 0x000 0x52534131) ∧
    (s.nwords < 2 ^ 16 → s.hostRead 32 0x004 = s.observe (.value 0x004 (BitVec.ofNat 32 s.nwords))) ∧
    s.hostRead 32 0x008 = s.observe (.value 0x008 0) ∧
    s.hostRead 32 0x010 = s.observe (.value 0x010 s.cmd) ∧
    s.hostRead 32 0x014 = s.observe (.value 0x014 s.statusWord) ∧
    s.hostRead 32 0x018 = s.observe (.value 0x018 (if s.doneEn then 1 else 0)) ∧
    s.hostRead 32 0x01C = s.observe (.value 0x01C (if s.donePend then 1 else 0))

/-- The fields of the STATUS word stand at their bits: BUSY 0, DONE 1, ERR 2, OVR 3, ERRCODE [7:4], zeros above; ERR is 1
exactly when ERRCODE is not 0 (10_state.md R31). The error codes have their numbers 0 to 5 (60_exceptions.md R141). -/
def Obligations.StatusFieldsStandAtTheirBits : Prop :=
  (∀ s : State,
    s.statusWord.getLsbD 0 = s.busy ∧ s.statusWord.getLsbD 1 = s.done ∧
    s.statusWord.getLsbD 2 = (s.statusWord.extractLsb' 4 4 != 0) ∧ s.statusWord.getLsbD 3 = s.ovr ∧
    s.statusWord.extractLsb' 4 4 = s.errcode.code ∧ s.statusWord.extractLsb' 8 24 = 0) ∧
  ErrCode.ok.code = 0 ∧ ErrCode.illegal.code = 1 ∧ ErrCode.modzero.code = 2 ∧ ErrCode.evenmod.code = 3 ∧
  ErrCode.range.code = 4 ∧ ErrCode.notinv.code = 5

/-- Writes to ID, PARAM and STATUS change no state (10_state.md R26). -/
def Obligations.ReadOnlyRegistersIgnoreWrites : Prop :=
  ∀ (s : State) (v : Word), s.hostWrite 32 0x000 v = s ∧ s.hostWrite 32 0x004 v = s ∧ s.hostWrite 32 0x014 v = s

/-- 10_state.md R29: a write of CTRL with bit 0 set resets the block at any time, BUSY or not, OVR with it; with only
bit 1 set it clears OVR; otherwise it does nothing. CTRL reads 0. -/
def Obligations.CtrlWriteActions : Prop :=
  ∀ (s : State) (v : Word),
    (v.getLsbD 0 = true → s.hostWrite 32 0x008 v = s.blockReset ∧ (s.hostWrite 32 0x008 v).ovr = false) ∧
    (v.getLsbD 0 = false → v.getLsbD 1 = true → s.hostWrite 32 0x008 v = { s with ovr := false }) ∧
    (v.getLsbD 0 = false → v.getLsbD 1 = false → s.hostWrite 32 0x008 v = s) ∧
    s.hostRead 32 0x008 = s.observe (.value 0x008 0)

/-- Reset, by the reset input, by CTRL.SRST in the step of that write, or as the initial state, leaves every big
register, CMD, STATUS, IRQ_EN and IRQ_PEND at 0, irq off, no command in flight, and PARAM as it was (10_state.md R42,
70_reset_and_hazards.md R164, R165). That the empty latch is written as zeros is the model's choice (log entry 3). -/
def Obligations.ResetLeavesTheResetValues : Prop :=
  ∀ s t : State,
    (takeTurn .resetPin s = .next t ∨ t = s.hostWrite 32 0x008 1 ∨ (t = State.reset ∧ s = State.reset)) →
    (∀ r, t.reg r = 0) ∧ t.cmd = 0 ∧ t.statusWord = 0 ∧ t.doneEn = false ∧ t.donePend = false ∧ t.irq = false ∧
    t.busy = false ∧ t.latch = Latch.empty ∧ t.nwords = s.nwords

/-- 60_exceptions.md R150, 10_state.md R33, R35: irq is DONE_EN and DONE_PEND; a write of IRQ_EN sets DONE_EN and leaves
DONE_PEND; writing 1 to IRQ_PEND bit 0 clears DONE_PEND and writing 0 does not; reading IRQ_PEND gives DONE_PEND in bit 0
with zeros above and clears nothing; acceptance does not clear it; every completion sets it. -/
def Obligations.InterruptEnableAndAcknowledge : Prop :=
  ∀ (s : State) (v : Word),
    (s.irq = true ↔ s.doneEn = true ∧ s.donePend = true) ∧
    s.hostWrite 32 0x018 v = { s with doneEn := v.getLsbD 0 } ∧
    s.hostWrite 32 0x01C v = { s with donePend := s.donePend && !v.getLsbD 0 } ∧
    s.hostRead 32 0x01C = s.observe (.value 0x01C (if s.donePend then 1 else 0)) ∧
    (s.hostWrite 32 0x010 v).donePend = s.donePend ∧
    ∀ t, s.busy = true → engineTurn s = .next t → t.donePend = true

/-- An access of another width than 32 bits, at an offset that is not a multiple of 4, or outside the window, records
ACCESS_FAULT and changes no block state; every other access leaves the fault record (20_memory.md R50,
60_exceptions.md R147). The platform's response is the free value Config.badAccess (log entry 9), about which nothing
is stated. -/
def Obligations.BadAccessIsRecorded : Prop :=
  ∀ (s : State) (width off : Nat) (v : Word),
    ((width ≠ 32 ∨ off % 4 ≠ 0 ∨ 0x2000 ≤ off) →
      (s.hostRead width off).faultRecord = some .accessFault ∧ s.SameBlock (s.hostRead width off) ∧
      (s.hostWrite width off v).faultRecord = some .accessFault ∧ s.SameBlock (s.hostWrite width off v)) ∧
    (width = 32 → off % 4 = 0 → off < 0x2000 →
      (s.hostRead width off).faultRecord = s.faultRecord ∧ (s.hostWrite width off v).faultRecord = s.faultRecord)

/-! ## Whole-machine rules and invariants -/

/-- No step clears the fault record, and no step changes PARAM (60_exceptions.md R147, 10_state.md R28). K is
State.nwords (log entry 1). -/
def Obligations.FaultRecordAndParamAreKept : Prop :=
  ∀ (s t : State), step s = .next t →
    t.nwords = s.nwords ∧ (s.faultRecord = some .accessFault → t.faultRecord = some .accessFault)

/-- Every step keeps the block well formed: K in range, every big register and latched value below 2^W, and DONE = 0 and
ERRCODE = 0 while BUSY = 1 (00_scope.md R5, R12; 10_state.md R31; 40_control.md R83). -/
def Obligations.StepKeepsWellFormed : Prop :=
  ∀ s t : State, s.Wf → step s = .next t → t.Wf

/-- While a command runs, CMD is its word and every latched value is still its register's value: every step keeps that,
so that reading the sources at completion would give the same result (10_state.md R37). -/
def Obligations.StepKeepsTheLatchCoherent : Prop :=
  ∀ s t : State, s.LatchCoherent → step s = .next t → t.LatchCoherent

/-- The state right after reset is well formed, its latch is coherent, and it meets the launch premises for its own K and
for key and operand registers named at 0 (10_state.md R42, 70_reset_and_hazards.md R181; K itself is the model's choice,
log entry 1). -/
def Obligations.ResetIsWellFormed : Prop :=
  State.reset.Wf ∧ State.reset.LatchCoherent ∧
  ∀ values : List (RegIdx × Nat), (∀ p ∈ values, namesReg p.1 = true ∧ p.2 = 0) →
    State.reset.Launch Config.resetNwords values

/-- 70_reset_and_hazards.md R166: while a command runs, a step either leaves it running, with its word in CMD and its
latch as they were, or is the Engine's completion of it, or resets the block: the reset input's turn, or the Host's turn
with a write of CTRL that has bit 0 set. -/
def Obligations.OnlyResetAbandonsACommand : Prop :=
  ∀ s t : State, s.busy = true → step s = .next t →
    (t.busy = true → t.latch = s.latch ∧ t.cmd = s.cmd) ∧
    (t.busy = false →
      (s.nextTurn = .engine ∧ engineTurn { s with schedule := s.schedule.tail } = .next t) ∨
      (s.nextTurn = .resetPin ∧ t.BlockIsReset) ∨
      (s.nextTurn = .host ∧ t.BlockIsReset ∧
        ∃ v rest, s.hostOps = .write 32 0x008 v :: rest ∧ v.getLsbD 0 = true))

/-- OVR changes only as listed: it is set only on the Host's turn, while BUSY, by a write of CMD or of word i < K of a big
register, and cleared only by the reset input's turn or on the Host's turn by a write of CTRL that resets the block or has
OVRCLR set (10_state.md R31, R34). -/
def Obligations.OverrunChangesOnlyAsListed : Prop :=
  ∀ s t : State, step s = .next t →
    (s.ovr = false → t.ovr = true → s.nextTurn = .host ∧ s.busy = true ∧
      ∃ off v rest, s.hostOps = .write 32 off v :: rest ∧
        (off = 0x010 ∨ ∃ r i, namesReg r = true ∧ i < s.nwords ∧ i < 128 ∧ off = 0x400 + 0x200 * r.toNat + 4 * i)) ∧
    (s.ovr = true → t.ovr = false →
      (s.nextTurn = .resetPin ∧ t.BlockIsReset) ∨
      (s.nextTurn = .host ∧ ∃ v rest, s.hostOps = .write 32 0x008 v :: rest ∧
        ((v.getLsbD 0 = true ∧ t.BlockIsReset) ∨ v.getLsbD 1 = true)))

/-- 60_exceptions.md R152, for a completion and a Host write in either order: of IRQ_PEND, leaving DONE_PEND 0 or 1; a
soft reset, leaving the reset state either way; of CMD, dropped with OVR before the completion and accepted after it.
The two orders are given by the model's schedule (log entry 5). -/
def Obligations.CompletionRacesAHostWrite : Prop :=
  ∀ (s : State) (v : Word) (rest : List HostOp), s.busy = true →
    (v.getLsbD 0 = true →
      (stepN 2 { s with hostOps := .write 32 0x01C v :: rest, schedule := [.engine, .host] }).donePend = false ∧
      (stepN 2 { s with hostOps := .write 32 0x01C v :: rest, schedule := [.host, .engine] }).donePend = true) ∧
    (v.getLsbD 0 = true →
      (stepN 2 { s with hostOps := .write 32 0x008 v :: rest, schedule := [.engine, .host] }).BlockIsReset ∧
      (stepN 2 { s with hostOps := .write 32 0x008 v :: rest, schedule := [.host, .engine] }).BlockIsReset) ∧
    (stepN 2 { s with hostOps := .write 32 0x010 v :: rest, schedule := [.engine, .host] }).busy = true ∧
    (stepN 2 { s with hostOps := .write 32 0x010 v :: rest, schedule := [.engine, .host] }).cmd = v ∧
    (stepN 2 { s with hostOps := .write 32 0x010 v :: rest, schedule := [.host, .engine] }).busy = false ∧
    (stepN 2 { s with hostOps := .write 32 0x010 v :: rest, schedule := [.host, .engine] }).ovr = true ∧
    (stepN 2 { s with hostOps := .write 32 0x010 v :: rest, schedule := [.host, .engine] }).cmd = s.cmd

/-- The WAIT loop ends: whatever turns are scheduled, after at most two steps more than the schedule has turns the Host
has gone past a WAIT, having read BUSY = 0 (70_reset_and_hazards.md R178; the fair turn after the schedule is the
model's form of it, log entry 5). -/
def Obligations.WaitLoopEnds : Prop :=
  ∀ (s : State) (rest : List HostOp), s.hostOps = .wait :: rest →
    ∃ n, n ≤ s.schedule.length + 2 ∧ (stepN n s).hostOps = rest ∧ (stepN n s).busy = false ∧
      ∃ w obs, (stepN n s).observed = .value 0x014 w :: obs ∧ w.getLsbD 0 = false

/-- A Host that follows the driver protocol, polling or with the interrupt and its final acknowledgement, meets no hazard:
in no state of its run, however completions and resets interleave, has a write been dropped, a busy register been read or
a bad access been made, so OVR, the fault record and the draws stay as they were (70_reset_and_hazards.md R174). The
interleavings are the model's schedules (log entry 5) and the draws its counter (log entry 8). -/
def Obligations.DriverProtocolMeetsNoHazard : Prop :=
  ∀ (s : State) (irq : Bool) (operands : List (RegIdx × Nat)) (i : Instr) (n : Nat), s.Wf → i.wf = true →
    (∀ p ∈ operands, namesReg p.1 = true) → s.hostOps = driver irq s.nwords operands i → s.ovr = false →
    (stepN n s).ovr = false ∧ (stepN n s).faultRecord = s.faultRecord ∧ (stepN n s).draws = s.draws

/-- The other lines of the driver protocol (70_reset_and_hazards.md R174). Waiting for irq makes no transaction while irq
is 0, then reads STATUS and goes on when BUSY is 0; with the interrupt enabled and no reset, the wait for a running
command ends, with the command completed. The STATUS check finds OVR and ERRCODE as they are, changes no block state, and
on a failed check skips the lines it names (log entries 5, 17, 24). -/
def Obligations.DriverWaitsForIrqAndChecksStatus : Prop :=
  ∀ (s : State) (rest : List HostOp),
    (s.hostOps = .waitIrq :: rest →
      (s.irq = false → s.hostTurn = s) ∧
      (s.irq = true → s.busy = true → s.hostTurn = s.observe (.value 0x014 s.statusWord)) ∧
      (s.irq = true → s.busy = false →
        s.hostTurn = ({ s with hostOps := rest } : State).observe (.value 0x014 s.statusWord)) ∧
      (s.busy = true → s.doneEn = true → (∀ t ∈ s.schedule, t ≠ .resetPin) →
        ∃ n, n ≤ s.schedule.length + 2 ∧ (stepN n s).hostOps = rest ∧ (stepN n s).busy = false ∧
          (stepN n s).done = true)) ∧
    ∀ skip, s.hostOps = .check skip :: rest →
      s.SameBlock s.hostTurn ∧
      s.hostTurn.observed = .verdict ⟨s.ovr, s.errcode.code⟩ :: .value 0x014 s.statusWord :: s.observed ∧
      s.hostTurn.hostOps = if s.ovr = false ∧ s.errcode = .ok then rest else rest.drop skip
end

