-- ==== Sys2Proof/Laws/Arith.lean ====
section
/-! SUPPORT. What the exact arithmetic computes: EGCD, inverses, the Montgomery radix, modular exponentiation, two's complement. -/
namespace Sys2Proof.Machine

/-- The loop of EGCD, for a bound that is not used up: it ends at the gcd of its remainders with a Bézout pair of the
numbers a and b, when it starts from remainders that its coefficients express. -/
theorem egcdLoop_spec (a b : Nat) :
    ∀ (fuel r0 r1 : Nat) (s0 s1 t0 t1 : Int), r1 ≤ fuel →
      (a : Int) * s0 + b * t0 = r0 → (a : Int) * s1 + b * t1 = r1 →
      (egcdLoop fuel r0 r1 s0 s1 t0 t1).1 = Nat.gcd r0 r1 ∧
      (a : Int) * (egcdLoop fuel r0 r1 s0 s1 t0 t1).2.1 + b * (egcdLoop fuel r0 r1 s0 s1 t0 t1).2.2 =
        Nat.gcd r0 r1 := by
  intro fuel
  induction fuel with
  | zero =>
    intro r0 r1 s0 s1 t0 t1 hf h0 _
    obtain rfl : r1 = 0 := by omega
    simpa [egcdLoop] using h0
  | succ fuel ih =>
    intro r0 r1 s0 s1 t0 t1 hf h0 h1
    by_cases hr : r1 = 0
    · subst hr; simpa [egcdLoop] using h0
    · have hlt : r0 % r1 < r1 := Nat.mod_lt _ (by omega)
      have hmod : ((r0 % r1 : Nat) : Int) = r0 - (r0 / r1 : Nat) * r1 := by
        have := Nat.div_add_mod r0 r1
        have h : ((r1 * (r0 / r1) + r0 % r1 : Nat) : Int) = r0 := by exact_mod_cast this
        push_cast at h ⊢
        linarith
      have step := ih r1 (r0 % r1) s1 (s0 - (r0 / r1 : Nat) * s1) t1 (t0 - (r0 / r1 : Nat) * t1) (by omega) h1
        (by rw [hmod, ← h0, ← h1]; ring)
      have hg : Nat.gcd r1 (r0 % r1) = Nat.gcd r0 r1 := by
        rw [Nat.gcd_comm r0 r1, Nat.gcd_rec r1 r0, Nat.gcd_comm]
      rw [hg] at step
      simpa only [egcdLoop, hr, if_false] using step

/-- EGCD returns the greatest common divisor (41_gcd_inverse.md R86). -/
theorem egcd_gcd (a b : Nat) : (egcd a b).1 = Nat.gcd a b :=
  (egcdLoop_spec a b b a b 1 0 0 1 le_rfl (by ring) (by ring)).1

/-- EGCD returns a Bézout pair (41_gcd_inverse.md R86). -/
theorem egcd_bezout (a b : Nat) : (a : Int) * (egcd a b).2.1 + b * (egcd a b).2.2 = Nat.gcd a b :=
  (egcdLoop_spec a b b a b 1 0 0 1 le_rfl (by ring) (by ring)).2

theorem signedMod_lt (s : Int) {m : Nat} (h : m ≠ 0) : signedMod s m < m := by
  unfold signedMod
  have h1 := Int.emod_nonneg s (b := (m : Int)) (by exact_mod_cast h)
  have h2 := Int.emod_lt_of_pos s (b := (m : Int)) (by omega)
  omega

theorem signedMod_cast (s : Int) {m : Nat} (h : m ≠ 0) : (signedMod s m : Int) = s % m :=
  Int.toNat_of_nonneg (Int.emod_nonneg s (by exact_mod_cast h))

theorem inverseMod_lt (a : Nat) {m : Nat} (h : m ≠ 0) : inverseMod a m < m := signedMod_lt _ h

/-- The inverse of EGCD inverts (41_gcd_inverse.md R90). -/
theorem inverseMod_spec (a : Nat) {m : Nat} (h : m ≠ 0) (hc : Nat.gcd a m = 1) :
    a * inverseMod a m % m = 1 % m := by
  have hb := egcd_bezout (a % m) m
  have hg : Nat.gcd (a % m) m = 1 := by rw [← hc, Nat.gcd_comm a m, Nat.gcd_rec m a]
  rw [hg] at hb
  have key : ((a * inverseMod a m : Nat) : Int) % m = (1 : Int) % m := by
    push_cast
    unfold inverseMod
    have e : ((a % m : Nat) : Int) * (egcd (a % m) m).2.1 = 1 - m * (egcd (a % m) m).2.2 := by
      push_cast at hb ⊢; linarith
    rw [signedMod_cast _ h, Int.mul_emod, Int.emod_emod_of_dvd _ (dvd_refl _), ← Int.emod_emod_of_dvd (a : Int) (dvd_refl _),
      ← Int.mul_emod, ← Int.natCast_mod, e, Int.sub_mul_emod_self_left]
  exact_mod_cast key

/-- The inverse modulo m is unique in [0, m). -/
theorem inverse_unique {a m u v : Nat} (hu : u < m) (hv : v < m) (h1 : a * u % m = 1 % m) (h2 : a * v % m = 1 % m) :
    v = u := by
  have e1 : a * u ≡ 1 [MOD m] := h1
  have e2 : a * v ≡ 1 [MOD m] := h2
  have : v ≡ u [MOD m] := by
    calc v = v * 1 := by ring
      _ ≡ v * (a * u) [MOD m] := (e1.mul_left v).symm
      _ = (a * v) * u := by ring
      _ ≡ 1 * u [MOD m] := e2.mul_right u
      _ = u := by ring
  rw [Nat.ModEq, Nat.mod_eq_of_lt hu, Nat.mod_eq_of_lt hv] at this
  exact this

theorem gcd_two_pow_odd (w : Nat) {n : Nat} (h : n % 2 = 1) : Nat.gcd (2 ^ w) n = 1 :=
  Nat.Coprime.pow_left w (Nat.coprime_two_left.2 (Nat.odd_iff.2 h))

theorem rinv_lt (w : Nat) {n : Nat} (h : n ≠ 0) : rinv w n < n := inverseMod_lt _ h

/-- Rinv inverts the Montgomery radix (42_modmul.md R97). -/
theorem rinv_spec (w : Nat) {n : Nat} (h : n % 2 = 1) : 2 ^ w * rinv w n % n = 1 % n :=
  inverseMod_spec _ (by omega) (gcd_two_pow_odd w h)

/-- The loop of square-and-multiply over the low i bits of the exponent (43_modexp.md R105). -/
theorem modexpLoop_spec (a b n : Nat) :
    ∀ i r : Nat, modexpLoop a b n i (r % n) = r ^ 2 ^ i * a ^ (b % 2 ^ i) % n := by
  intro i
  induction i with
  | zero => intro r; simp [modexpLoop, Nat.mod_one]
  | succ i ih =>
    intro r
    have sq : r % n * (r % n) % n = r * r % n := (Nat.mul_mod r r n).symm
    have hb : b % 2 ^ (i + 1) = 2 ^ i * (b.testBit i).toNat + b % 2 ^ i := by
      rw [pow_succ, Nat.mod_mul, Nat.toNat_testBit]; ring
    rw [modexpLoop, sq]
    cases hbit : b.testBit i with
    | false =>
      rw [if_neg (by simp), ih, hb, hbit]
      congr 2
      · ring
      · simp
    | true =>
      have mul : r * r % n * a % n = r * r * a % n := by rw [Nat.mod_mul_mod]
      rw [if_pos rfl, mul, ih, hb, hbit]
      congr 1
      simp only [Bool.toNat_true]
      ring

theorem lt_two_pow_bitlen (b : Nat) : b < 2 ^ bitlen b := by
  unfold bitlen
  split
  · subst_vars; simp
  · exact Nat.lt_log2_self

/-- MODEXP's value is the exact power reduced (43_modexp.md R103). -/
theorem modexp_eq (a b n : Nat) : modexp a b n = a ^ b % n := by
  rw [modexp, modexpLoop_spec, Nat.mod_eq_of_lt (lt_two_pow_bitlen b), one_pow, one_mul, ← Nat.pow_mod]

theorem tcW_lt (w : Nat) (s : Int) : tcW w s < 2 ^ w := by
  have h : (0 : Int) < (2 ^ w : Nat) := by positivity
  have h1 := Int.emod_nonneg s h.ne'
  have h2 := Int.emod_lt_of_pos s h
  unfold tcW
  omega

/-- A signed value in range survives its two's-complement pattern (00_scope.md R12). -/
theorem sextW_tcW {w : Nat} (hw : 1 ≤ w) {s : Int} (h1 : -(2 ^ (w - 1) : Nat) ≤ s) (h2 : s < (2 ^ (w - 1) : Nat)) :
    sextW w (tcW w s) = s := by
  obtain ⟨k, rfl⟩ : ∃ k, w = k + 1 := ⟨w - 1, by omega⟩
  simp only [Nat.add_sub_cancel] at h1 h2
  have hp : 2 ^ (k + 1) = 2 * 2 ^ k := by ring
  have hpos : 0 < 2 ^ k := by positivity
  unfold sextW tcW
  simp only [Nat.add_sub_cancel, hp]
  generalize 2 ^ k = p at *
  by_cases hs : 0 ≤ s
  · rw [Int.emod_eq_of_lt hs (by push_cast; omega)]
    rw [if_pos (by omega)]; omega
  · have : s % ((2 * p : Nat) : Int) = s + (2 * p : Nat) := by
      rw [← Int.add_emod_right, Int.emod_eq_of_lt (by push_cast; omega) (by push_cast; omega)]
    rw [this]
    rw [if_neg (by omega)]; omega

end Sys2Proof.Machine
end

