-- ==== Sys2Proof/Laws/Encoding.lean ====
section
/-! SUPPORT. What each field of an encoded word holds, its fixed bits, and the opcode map read both ways. -/
namespace Sys2Proof

/-- OP of an encoded word (30_encoding.md R65, R75). -/
@[simp] theorem opField_encodeFields (op : BitVec 8) (rd rs1 rs2 rs3x ry : RegIdx) :
    opField (encodeFields op rd rs1 rs2 rs3x ry) = op := by
  ext i hi
  simp [opField, encodeFields, BitVec.getElem_extractLsb']
  interval_cases i <;> simp

/-- The register fields of an encoded word (30_encoding.md R65, R75). -/
@[simp] theorem of_encodeFields (op : BitVec 8) (rd rs1 rs2 rs3x ry : RegIdx) (f : Field) :
    f.of (encodeFields op rd rs1 rs2 rs3x ry) =
      match f with
      | .rd => rd
      | .rs1 => rs1
      | .rs2 => rs2
      | .rs3x => rs3x
      | .ry => ry := by
  cases f <;> ext i hi <;> simp [Field.of, Field.lo, encodeFields, BitVec.getElem_extractLsb'] <;>
    interval_cases i <;> simp

/-- The fixed bits of a word whose unused fields are 0 are its OP alone (30_encoding.md R66). -/
theorem encodeFields_and_mask_x (op : BitVec 8) (rd rs1 rs2 rs3x ry : RegIdx) :
    encodeFields op rd rs1 rs2 rs3x ry &&& Format.x.mask = op.setWidth 32 := by
  ext i hi
  simp only [encodeFields, Format.mask]
  interval_cases i <;> simp

theorem encodeFields_and_mask_r4 (op : BitVec 8) (rd rs1 rs2 rs3x : RegIdx) :
    encodeFields op rd rs1 rs2 rs3x 0#4 &&& Format.r4.mask = op.setWidth 32 := by
  ext i hi
  simp only [encodeFields, Format.mask]
  interval_cases i <;> simp

theorem encodeFields_and_mask_r3 (op : BitVec 8) (rd rs1 rs2 : RegIdx) :
    encodeFields op rd rs1 rs2 0#4 0#4 &&& Format.r3.mask = op.setWidth 32 := by
  ext i hi
  simp only [encodeFields, Format.mask]
  interval_cases i <;> simp

theorem encodeFields_and_mask_r2 (op : BitVec 8) (rd rs1 : RegIdx) :
    encodeFields op rd rs1 0#4 0#4 0#4 &&& Format.r2.mask = op.setWidth 32 := by
  ext i hi
  simp only [encodeFields, Format.mask]
  interval_cases i <;> simp

/-- Encoding the fields of a word gives the word back, its reserved bits [31:28] cleared (30_encoding.md R65, R75). -/
theorem encodeFields_of_word (w : Word) :
    encodeFields (opField w) (Field.rd.of w) (Field.rs1.of w) (Field.rs2.of w) (Field.rs3x.of w) (Field.ry.of w) =
      w &&& 0x0FFFFFFF#32 := by
  ext i hi
  simp only [encodeFields, opField, Field.of, Field.lo]
  interval_cases i <;> simp

@[simp] theorem opOf_code (op : Op) : opOf op.code = some op := by cases op <;> rfl

/-- The opcode map has one number for each opcode (30_encoding.md R69). -/
theorem code_of_opOf {c : BitVec 8} {op : Op} (h : opOf c = some op) : op.code = c := by
  unfold opOf at h
  split at h <;> first | (cases h; rename_i e; exact BitVec.eq_of_toNat_eq e.symm) | cases h

@[simp] theorem op_build (op : Op) (w : Word) : (op.build w).op = op := by cases op <;> rfl

end Sys2Proof
end

