-- ==== Sys2Proof/Laws/State.lean ====
section
/-! SUPPORT. One lemma per field and per update of the state, so that no proof unfolds a record update. -/
namespace Sys2Proof.Machine

/-! ### `State.setReg` -/

@[simp] theorem State.setReg_x (s : State) (r : RegIdx) (v : Nat) : (s.setReg r v).x = writeRegs s.x [(r, v)] := rfl
@[simp] theorem State.setReg_nwords (s : State) (r : RegIdx) (v : Nat) : (s.setReg r v).nwords = s.nwords := rfl
@[simp] theorem State.setReg_cmd (s : State) (r : RegIdx) (v : Nat) : (s.setReg r v).cmd = s.cmd := rfl
@[simp] theorem State.setReg_busy (s : State) (r : RegIdx) (v : Nat) : (s.setReg r v).busy = s.busy := rfl
@[simp] theorem State.setReg_done (s : State) (r : RegIdx) (v : Nat) : (s.setReg r v).done = s.done := rfl
@[simp] theorem State.setReg_ovr (s : State) (r : RegIdx) (v : Nat) : (s.setReg r v).ovr = s.ovr := rfl
@[simp] theorem State.setReg_errcode (s : State) (r : RegIdx) (v : Nat) : (s.setReg r v).errcode = s.errcode := rfl
@[simp] theorem State.setReg_doneEn (s : State) (r : RegIdx) (v : Nat) : (s.setReg r v).doneEn = s.doneEn := rfl
@[simp] theorem State.setReg_donePend (s : State) (r : RegIdx) (v : Nat) : (s.setReg r v).donePend = s.donePend := rfl
@[simp] theorem State.setReg_latch (s : State) (r : RegIdx) (v : Nat) : (s.setReg r v).latch = s.latch := rfl
@[simp] theorem State.setReg_faultRecord (s : State) (r : RegIdx) (v : Nat) : (s.setReg r v).faultRecord = s.faultRecord := rfl
@[simp] theorem State.setReg_hostOps (s : State) (r : RegIdx) (v : Nat) : (s.setReg r v).hostOps = s.hostOps := rfl
@[simp] theorem State.setReg_schedule (s : State) (r : RegIdx) (v : Nat) : (s.setReg r v).schedule = s.schedule := rfl
@[simp] theorem State.setReg_observed (s : State) (r : RegIdx) (v : Nat) : (s.setReg r v).observed = s.observed := rfl
@[simp] theorem State.setReg_draws (s : State) (r : RegIdx) (v : Nat) : (s.setReg r v).draws = s.draws := rfl

@[simp] theorem State.setReg_width (s : State) (r : RegIdx) (v : Nat) : (s.setReg r v).width = s.width := rfl

/-! ### `State.accept` -/

@[simp] theorem State.accept_x (s : State) (v : Word) : (s.accept v).x = s.x := rfl
@[simp] theorem State.accept_nwords (s : State) (v : Word) : (s.accept v).nwords = s.nwords := rfl
@[simp] theorem State.accept_cmd (s : State) (v : Word) : (s.accept v).cmd = v := rfl
@[simp] theorem State.accept_busy (s : State) (v : Word) : (s.accept v).busy = true := rfl
@[simp] theorem State.accept_done (s : State) (v : Word) : (s.accept v).done = false := rfl
@[simp] theorem State.accept_ovr (s : State) (v : Word) : (s.accept v).ovr = s.ovr := rfl
@[simp] theorem State.accept_errcode (s : State) (v : Word) : (s.accept v).errcode = .ok := rfl
@[simp] theorem State.accept_doneEn (s : State) (v : Word) : (s.accept v).doneEn = s.doneEn := rfl
@[simp] theorem State.accept_donePend (s : State) (v : Word) : (s.accept v).donePend = s.donePend := rfl
@[simp] theorem State.accept_latch (s : State) (v : Word) : (s.accept v).latch = s.latchOf v := rfl
@[simp] theorem State.accept_faultRecord (s : State) (v : Word) : (s.accept v).faultRecord = s.faultRecord := rfl
@[simp] theorem State.accept_hostOps (s : State) (v : Word) : (s.accept v).hostOps = s.hostOps := rfl
@[simp] theorem State.accept_schedule (s : State) (v : Word) : (s.accept v).schedule = s.schedule := rfl
@[simp] theorem State.accept_observed (s : State) (v : Word) : (s.accept v).observed = s.observed := rfl
@[simp] theorem State.accept_draws (s : State) (v : Word) : (s.accept v).draws = s.draws := rfl

@[simp] theorem State.accept_reg (s : State) (v : Word) (q : RegIdx) : (s.accept v).reg q = s.reg q := rfl
@[simp] theorem State.accept_width (s : State) (v : Word) : (s.accept v).width = s.width := rfl

/-! ### `State.complete` -/

@[simp] theorem State.complete_x (s : State) (r : Result) : (s.complete r).x = r.apply s.x := rfl
@[simp] theorem State.complete_nwords (s : State) (r : Result) : (s.complete r).nwords = s.nwords := rfl
@[simp] theorem State.complete_cmd (s : State) (r : Result) : (s.complete r).cmd = s.cmd := rfl
@[simp] theorem State.complete_busy (s : State) (r : Result) : (s.complete r).busy = false := rfl
@[simp] theorem State.complete_done (s : State) (r : Result) : (s.complete r).done = true := rfl
@[simp] theorem State.complete_ovr (s : State) (r : Result) : (s.complete r).ovr = s.ovr := rfl
@[simp] theorem State.complete_errcode (s : State) (r : Result) : (s.complete r).errcode = r.code := rfl
@[simp] theorem State.complete_doneEn (s : State) (r : Result) : (s.complete r).doneEn = s.doneEn := rfl
@[simp] theorem State.complete_donePend (s : State) (r : Result) : (s.complete r).donePend = true := rfl
@[simp] theorem State.complete_latch (s : State) (r : Result) : (s.complete r).latch = s.latch := rfl
@[simp] theorem State.complete_faultRecord (s : State) (r : Result) : (s.complete r).faultRecord = s.faultRecord := rfl
@[simp] theorem State.complete_hostOps (s : State) (r : Result) : (s.complete r).hostOps = s.hostOps := rfl
@[simp] theorem State.complete_schedule (s : State) (r : Result) : (s.complete r).schedule = s.schedule := rfl
@[simp] theorem State.complete_observed (s : State) (r : Result) : (s.complete r).observed = s.observed := rfl
@[simp] theorem State.complete_draws (s : State) (r : Result) : (s.complete r).draws = s.draws := rfl

@[simp] theorem State.complete_width (s : State) (r : Result) : (s.complete r).width = s.width := rfl

/-! ### `State.blockReset` -/

@[simp] theorem State.blockReset_x (s : State) : (s.blockReset).x = Vector.replicate 11 0 := rfl
@[simp] theorem State.blockReset_nwords (s : State) : (s.blockReset).nwords = s.nwords := rfl
@[simp] theorem State.blockReset_cmd (s : State) : (s.blockReset).cmd = 0 := rfl
@[simp] theorem State.blockReset_busy (s : State) : (s.blockReset).busy = false := rfl
@[simp] theorem State.blockReset_done (s : State) : (s.blockReset).done = false := rfl
@[simp] theorem State.blockReset_ovr (s : State) : (s.blockReset).ovr = false := rfl
@[simp] theorem State.blockReset_errcode (s : State) : (s.blockReset).errcode = .ok := rfl
@[simp] theorem State.blockReset_doneEn (s : State) : (s.blockReset).doneEn = false := rfl
@[simp] theorem State.blockReset_donePend (s : State) : (s.blockReset).donePend = false := rfl
@[simp] theorem State.blockReset_latch (s : State) : (s.blockReset).latch = Latch.empty := rfl
@[simp] theorem State.blockReset_faultRecord (s : State) : (s.blockReset).faultRecord = s.faultRecord := rfl
@[simp] theorem State.blockReset_hostOps (s : State) : (s.blockReset).hostOps = s.hostOps := rfl
@[simp] theorem State.blockReset_schedule (s : State) : (s.blockReset).schedule = s.schedule := rfl
@[simp] theorem State.blockReset_observed (s : State) : (s.blockReset).observed = s.observed := rfl
@[simp] theorem State.blockReset_draws (s : State) : (s.blockReset).draws = s.draws := rfl

@[simp] theorem State.blockReset_width (s : State) : (s.blockReset).width = s.width := rfl

/-! ### `State.observe` -/

@[simp] theorem State.observe_x (s : State) (o : Observation) : (s.observe o).x = s.x := rfl
@[simp] theorem State.observe_nwords (s : State) (o : Observation) : (s.observe o).nwords = s.nwords := rfl
@[simp] theorem State.observe_cmd (s : State) (o : Observation) : (s.observe o).cmd = s.cmd := rfl
@[simp] theorem State.observe_busy (s : State) (o : Observation) : (s.observe o).busy = s.busy := rfl
@[simp] theorem State.observe_done (s : State) (o : Observation) : (s.observe o).done = s.done := rfl
@[simp] theorem State.observe_ovr (s : State) (o : Observation) : (s.observe o).ovr = s.ovr := rfl
@[simp] theorem State.observe_errcode (s : State) (o : Observation) : (s.observe o).errcode = s.errcode := rfl
@[simp] theorem State.observe_doneEn (s : State) (o : Observation) : (s.observe o).doneEn = s.doneEn := rfl
@[simp] theorem State.observe_donePend (s : State) (o : Observation) : (s.observe o).donePend = s.donePend := rfl
@[simp] theorem State.observe_latch (s : State) (o : Observation) : (s.observe o).latch = s.latch := rfl
@[simp] theorem State.observe_faultRecord (s : State) (o : Observation) : (s.observe o).faultRecord = s.faultRecord := rfl
@[simp] theorem State.observe_hostOps (s : State) (o : Observation) : (s.observe o).hostOps = s.hostOps := rfl
@[simp] theorem State.observe_schedule (s : State) (o : Observation) : (s.observe o).schedule = s.schedule := rfl
@[simp] theorem State.observe_observed (s : State) (o : Observation) : (s.observe o).observed = o :: s.observed := rfl
@[simp] theorem State.observe_draws (s : State) (o : Observation) : (s.observe o).draws = s.draws := rfl

@[simp] theorem State.observe_reg (s : State) (o : Observation) (q : RegIdx) : (s.observe o).reg q = s.reg q := rfl
@[simp] theorem State.observe_width (s : State) (o : Observation) : (s.observe o).width = s.width := rfl

/-! ### `State.recordBadAccess` -/

@[simp] theorem State.recordBadAccess_x (s : State) (op : HostOp) : (s.recordBadAccess op).x = s.x := rfl
@[simp] theorem State.recordBadAccess_nwords (s : State) (op : HostOp) : (s.recordBadAccess op).nwords = s.nwords := rfl
@[simp] theorem State.recordBadAccess_cmd (s : State) (op : HostOp) : (s.recordBadAccess op).cmd = s.cmd := rfl
@[simp] theorem State.recordBadAccess_busy (s : State) (op : HostOp) : (s.recordBadAccess op).busy = s.busy := rfl
@[simp] theorem State.recordBadAccess_done (s : State) (op : HostOp) : (s.recordBadAccess op).done = s.done := rfl
@[simp] theorem State.recordBadAccess_ovr (s : State) (op : HostOp) : (s.recordBadAccess op).ovr = s.ovr := rfl
@[simp] theorem State.recordBadAccess_errcode (s : State) (op : HostOp) : (s.recordBadAccess op).errcode = s.errcode := rfl
@[simp] theorem State.recordBadAccess_doneEn (s : State) (op : HostOp) : (s.recordBadAccess op).doneEn = s.doneEn := rfl
@[simp] theorem State.recordBadAccess_donePend (s : State) (op : HostOp) : (s.recordBadAccess op).donePend = s.donePend := rfl
@[simp] theorem State.recordBadAccess_latch (s : State) (op : HostOp) : (s.recordBadAccess op).latch = s.latch := rfl
@[simp] theorem State.recordBadAccess_faultRecord (s : State) (op : HostOp) : (s.recordBadAccess op).faultRecord = some .accessFault := rfl
@[simp] theorem State.recordBadAccess_hostOps (s : State) (op : HostOp) : (s.recordBadAccess op).hostOps = s.hostOps := rfl
@[simp] theorem State.recordBadAccess_schedule (s : State) (op : HostOp) : (s.recordBadAccess op).schedule = s.schedule := rfl
@[simp] theorem State.recordBadAccess_observed (s : State) (op : HostOp) : (s.recordBadAccess op).observed = .badAccess op (Config.badAccess s.draws) :: s.observed := rfl
@[simp] theorem State.recordBadAccess_draws (s : State) (op : HostOp) : (s.recordBadAccess op).draws = s.draws + 1 := rfl

@[simp] theorem State.recordBadAccess_reg (s : State) (op : HostOp) (q : RegIdx) : (s.recordBadAccess op).reg q = s.reg q := rfl
@[simp] theorem State.recordBadAccess_width (s : State) (op : HostOp) : (s.recordBadAccess op).width = s.width := rfl

/-! ### `State.doneWith` -/

@[simp] theorem State.doneWith_x (s : State) (c : ErrCode) : (s.doneWith c).x = s.x := rfl
@[simp] theorem State.doneWith_nwords (s : State) (c : ErrCode) : (s.doneWith c).nwords = s.nwords := rfl
@[simp] theorem State.doneWith_cmd (s : State) (c : ErrCode) : (s.doneWith c).cmd = s.cmd := rfl
@[simp] theorem State.doneWith_busy (s : State) (c : ErrCode) : (s.doneWith c).busy = false := rfl
@[simp] theorem State.doneWith_done (s : State) (c : ErrCode) : (s.doneWith c).done = true := rfl
@[simp] theorem State.doneWith_ovr (s : State) (c : ErrCode) : (s.doneWith c).ovr = s.ovr := rfl
@[simp] theorem State.doneWith_errcode (s : State) (c : ErrCode) : (s.doneWith c).errcode = c := rfl
@[simp] theorem State.doneWith_doneEn (s : State) (c : ErrCode) : (s.doneWith c).doneEn = s.doneEn := rfl
@[simp] theorem State.doneWith_donePend (s : State) (c : ErrCode) : (s.doneWith c).donePend = true := rfl
@[simp] theorem State.doneWith_latch (s : State) (c : ErrCode) : (s.doneWith c).latch = s.latch := rfl
@[simp] theorem State.doneWith_faultRecord (s : State) (c : ErrCode) : (s.doneWith c).faultRecord = s.faultRecord := rfl
@[simp] theorem State.doneWith_hostOps (s : State) (c : ErrCode) : (s.doneWith c).hostOps = s.hostOps := rfl
@[simp] theorem State.doneWith_schedule (s : State) (c : ErrCode) : (s.doneWith c).schedule = s.schedule := rfl
@[simp] theorem State.doneWith_observed (s : State) (c : ErrCode) : (s.doneWith c).observed = s.observed := rfl
@[simp] theorem State.doneWith_draws (s : State) (c : ErrCode) : (s.doneWith c).draws = s.draws := rfl

@[simp] theorem State.doneWith_reg (s : State) (c : ErrCode) (q : RegIdx) : (s.doneWith c).reg q = s.reg q := rfl
@[simp] theorem State.doneWith_width (s : State) (c : ErrCode) : (s.doneWith c).width = s.width := rfl

/-- An error writes no big register (60_exceptions.md R146). -/
theorem State.complete_error (s : State) (c : ErrCode) : s.complete (.error c) = s.doneWith c := rfl

@[simp] theorem Result.code_error (c : ErrCode) : (Result.error c).code = c := rfl
@[simp] theorem Result.code_commit (ws : List (RegIdx × Nat)) : (Result.commit ws).code = .ok := rfl
@[simp] theorem Result.apply_error (c : ErrCode) (x : Vector Nat 11) : (Result.error c).apply x = x := rfl
@[simp] theorem Result.apply_commit (ws : List (RegIdx × Nat)) (x : Vector Nat 11) :
    (Result.commit ws).apply x = writeRegs x ws := rfl

@[simp] theorem Result.withModulus_zero (r : Result) : Result.withModulus 0 r = .error .modzero := rfl
theorem Result.withModulus_pos {n : Nat} (h : n ≠ 0) (r : Result) : Result.withModulus n r = r := if_neg h

@[simp] theorem ErrCode.code_eq_zero (c : ErrCode) : (c.code = 0) = (c = .ok) := by cases c <;> simp [ErrCode.code]

/-- ERR reads 1 exactly when ERRCODE is not OK (10_state.md R31). -/
theorem State.err_eq_true (s : State) : s.err = true ↔ s.errcode ≠ .ok := by
  unfold State.err; cases s.errcode <;> decide

end Sys2Proof.Machine
end

