-- ==== Sys2Proof/Laws/Registers.lean ====
section
/-! SUPPORT. What reading a big register gives after writes, and what the latch holds after acceptance. -/
namespace Sys2Proof.Machine

theorem namesReg_iff (r : RegIdx) : namesReg r = true ↔ r.toNat < 11 := by simp [namesReg]

/-- A value read from a register file after writes: the last write to it, or its old value. -/
theorem writeRegs_append (x : Vector Nat 11) (ws : List (RegIdx × Nat)) (w : RegIdx × Nat) :
    writeRegs x (ws ++ [w]) = (writeRegs x ws).setIfInBounds w.1.toNat w.2 := by
  simp [writeRegs]

@[simp] theorem writeRegs_nil (x : Vector Nat 11) : writeRegs x [] = x := rfl

theorem writeRegs_cons (x : Vector Nat 11) (w : RegIdx × Nat) (ws : List (RegIdx × Nat)) :
    writeRegs x (w :: ws) = writeRegs (x.setIfInBounds w.1.toNat w.2) ws := rfl

/-- A register after one write: the written value at the destination, the old value elsewhere. -/
theorem reg_write_one (x : Vector Nat 11) (rd r : RegIdx) (v : Nat) (hd : namesReg rd = true) :
    (x.setIfInBounds rd.toNat v)[r.toNat]?.getD 0 = if r = rd then v else x[r.toNat]?.getD 0 := by
  rw [Vector.getElem?_setIfInBounds]
  have h := (namesReg_iff rd).1 hd
  by_cases e : r = rd
  · simp [e, h]
  · have : rd.toNat ≠ r.toNat := fun h' => e (BitVec.eq_of_toNat_eq h'.symm)
    simp [e, this]

/-- A register that no write names keeps its value. -/
theorem reg_writeRegs_of_not_mem (ws : List (RegIdx × Nat)) :
    ∀ (x : Vector Nat 11) (r : RegIdx), r ∉ ws.map Prod.fst →
      (writeRegs x ws)[r.toNat]?.getD 0 = x[r.toNat]?.getD 0 := by
  induction ws with
  | nil => intro x r _; rfl
  | cons w ws ih =>
    intro x r hr
    simp only [List.map_cons, List.mem_cons, not_or] at hr
    rw [writeRegs_cons, ih _ _ hr.2, Vector.getElem?_setIfInBounds]
    have : w.1.toNat ≠ r.toNat := fun h' => hr.1 (BitVec.eq_of_toNat_eq h'.symm)
    simp [this]

/-- Every value of a register file after writes is an old value or a written one. -/
theorem mem_writeRegs (ws : List (RegIdx × Nat)) :
    ∀ (x : Vector Nat 11) (v : Nat), v ∈ (writeRegs x ws).toList → v ∈ x.toList ∨ v ∈ ws.map Prod.snd := by
  induction ws with
  | nil => intro x v h; exact .inl h
  | cons w ws ih =>
    intro x v h
    rw [writeRegs_cons] at h
    rcases ih _ _ h with h | h
    · rw [Vector.toList_setIfInBounds] at h
      rcases List.mem_or_eq_of_mem_set h with h | h
      · exact .inl h
      · exact .inr (by simp [h])
    · exact .inr (by simp [h])

/-- The value of a register is a value of the register file, or 0. -/
theorem State.reg_mem (s : State) (r : RegIdx) : s.reg r ∈ s.x.toList ∨ s.reg r = 0 := by
  unfold State.reg
  by_cases h : r.toNat < 11
  · left; simp [h]
  · right; simp [h]

@[simp] theorem State.setReg_reg (s : State) (rd r : RegIdx) (v : Nat) (hd : namesReg rd = true) :
    (s.setReg rd v).reg r = if r = rd then v else s.reg r := by
  simpa [State.reg, writeRegs] using reg_write_one s.x rd r v hd

/-- Two register files with the same value at every named index are equal. -/
theorem regs_ext {s t : State} (h : ∀ r, namesReg r = true → t.reg r = s.reg r) : t.x = s.x := by
  ext i hi
  have hr : (BitVec.ofNat 4 i).toNat = i := by simp; omega
  have := h (BitVec.ofNat 4 i) (by rw [namesReg_iff, hr]; exact hi)
  simpa [State.reg, hr, hi] using this

@[simp] theorem Latch.setVal_val_self (l : Latch) (f : Field) (v : Nat) : (l.setVal f v).val f = v := by
  cases f <;> rfl

theorem Latch.setVal_val_ne (l : Latch) {f g : Field} (v : Nat) (h : g ≠ f) : (l.setVal f v).val g = l.val g := by
  cases f <;> cases g <;> first | rfl | exact absurd rfl h

theorem State.latchField_val (s : State) (v : Word) (l : Latch) (f g : Field) :
    (s.latchField v l f).val g =
      if g = f ∧ namesReg (f.of v) = true then s.reg (f.of v) else l.val g := by
  unfold State.latchField
  by_cases hn : namesReg (f.of v) = true
  · by_cases e : g = f
    · subst e; simp [hn]
    · simp [hn, e, Latch.setVal_val_ne _ _ e]
  · simp [hn]

/-- The parts of a latch that no field holds: the word and the keys. -/
def Latch.keys (l : Latch) : Word × Nat × Nat × Nat := (l.word, l.kn, l.ke, l.kd)

@[simp] theorem State.latchField_keys (s : State) (v : Word) (l : Latch) (f : Field) :
    (s.latchField v l f).keys = l.keys := by
  unfold State.latchField
  split <;> cases f <;> rfl

/-- The latching loop never touches the word or the keys. -/
theorem State.latchFold_keys (s : State) (v : Word) (fs : List Field) :
    ∀ l : Latch, (fs.foldl (s.latchField v) l).keys = l.keys := by
  induction fs with
  | nil => intro l; rfl
  | cons f fs ih => intro l; rw [List.foldl_cons, ih, State.latchField_keys]

/-- What the latching loop leaves in a field: the register's value where the field is used and its index names a
register, the old value otherwise. -/
theorem State.latchFold_val (s : State) (v : Word) (g : Field) (fs : List Field) :
    ∀ l : Latch, (fs.foldl (s.latchField v) l).val g =
      if g ∈ fs ∧ namesReg (g.of v) = true then s.reg (g.of v) else l.val g := by
  induction fs with
  | nil => intro l; simp
  | cons f fs ih =>
    intro l
    rw [List.foldl_cons, ih, State.latchField_val]
    by_cases e : g = f
    · subst e
      by_cases hn : namesReg (g.of v) = true <;> simp [hn]
    · simp [e]

theorem State.latchOf_keys (s : State) (v : Word) :
    (s.latchOf v).keys = (v, s.reg regKN, s.reg regKE, s.reg regKD) := State.latchFold_keys s v _ _

@[simp] theorem State.latchOf_word (s : State) (v : Word) : (s.latchOf v).word = v :=
  congrArg (·.1) (s.latchOf_keys v)

@[simp] theorem State.latchOf_kn (s : State) (v : Word) : (s.latchOf v).kn = s.reg regKN :=
  congrArg (·.2.1) (s.latchOf_keys v)

@[simp] theorem State.latchOf_ke (s : State) (v : Word) : (s.latchOf v).ke = s.reg regKE :=
  congrArg (·.2.2.1) (s.latchOf_keys v)

@[simp] theorem State.latchOf_kd (s : State) (v : Word) : (s.latchOf v).kd = s.reg regKD :=
  congrArg (·.2.2.2) (s.latchOf_keys v)

/-- What acceptance latches for a field (10_state.md R37). -/
theorem State.latchOf_val (s : State) (v : Word) (g : Field) :
    (s.latchOf v).val g =
      if g ∈ usedFields v ∧ namesReg (g.of v) = true then s.reg (g.of v) else s.latch.val g := by
  rw [State.latchOf, State.latchFold_val]
  cases g <;> rfl

end Sys2Proof.Machine
end

