-- ==== Sys2Proof/Laws/Exec.lean ====
section
/-! SUPPORT. Everything a command's completion can do, said once: it completes with a result that depends on LATCH and W alone, whose writes go to the command's destinations. -/
namespace Sys2Proof.Machine

/-- The result a command's completion ends with, as a function of LATCH and W (10_state.md R38). -/
def execResult (i : Instr) (l : Latch) (w : Nat) : Result :=
  if i.wf then
    match i with
    | .nop => .commit []
    | .mov rd _ => .commit [(rd, l.rs1)]
    | .gcd rd _ _ => .commit [(rd, Nat.gcd l.rs1 l.rs2)]
    | .xgcd rd rx ry _ _ =>
      .commit [(rd, (egcd l.rs1 l.rs2).1), (rx, tcW w (egcd l.rs1 l.rs2).2.1), (ry, tcW w (egcd l.rs1 l.rs2).2.2)]
    | .inv rd _ _ =>
      .withModulus l.rs2
        (if (egcd (l.rs1 % l.rs2) l.rs2).1 ≠ 1 then .error .notinv else .commit [(rd, inverseMod l.rs1 l.rs2)])
    | .modred rd _ _ => .withModulus l.rs2 (.commit [(rd, l.rs1 % l.rs2)])
    | .modmul rd _ _ _ => .withModulus l.rs3x (.commit [(rd, l.rs1 * l.rs2 % l.rs3x)])
    | .montmul rd _ _ _ =>
      .withModulus l.rs3x
        (if l.rs3x % 2 = 0 then .error .evenmod else .commit [(rd, l.rs1 * l.rs2 * rinv w l.rs3x % l.rs3x)])
    | .modexp rd _ _ _ => .withModulus l.rs3x (.commit [(rd, modexp l.rs1 l.rs2 l.rs3x)])
    | .rsaenc rd _ => rsaResult rd l.rs1 l.ke l.kn
    | .rsadec rd _ => rsaResult rd l.rs1 l.kd l.kn
  else .error .illegal

/-- Every command completes, with its result (10_state.md R38). -/
theorem exec_eq (i : Instr) (s : State) : exec i s = .next (s.complete (execResult i s.latch s.width)) := by
  cases i <;>
    simp only [exec, execNop, execMov, execGcd, execXgcd, execInv, execModred, execModmul, execMontmul, execModexp,
      execRsaenc, execRsadec, State.finish, execResult, Instr.wf, Instr.dests, Instr.sources, List.all_cons,
      List.all_nil, Bool.and_true, Bool.and_assoc]

/-- The writes of a result go to the destinations, in their order (30_encoding.md R67). -/
theorem execResult_dests {i : Instr} {l : Latch} {w : Nat} {ws : List (RegIdx × Nat)}
    (h : execResult i l w = .commit ws) : ws.map Prod.fst = i.dests := by
  unfold execResult at h
  split at h
  · cases i <;> simp only [rsaResult, Result.withModulus] at h <;> (repeat' split at h) <;> cases h <;> rfl
  · cases h

/-- A reserved register index makes the command ILLEGAL (30_encoding.md R70, 60_exceptions.md R148). -/
theorem execResult_illegal {i : Instr} (l : Latch) (w : Nat) (h : i.wf = false) :
    execResult i l w = .error .illegal := by
  unfold execResult; rw [if_neg (by simp [h])]

/-- Every value a command writes is below 2^W when its operands are (40_control.md R83). -/
theorem execResult_lt {i : Instr} {l : Latch} {w : Nat} {ws : List (RegIdx × Nat)}
    (h : execResult i l w = .commit ws) (hl : ∀ v ∈ l.values, v < 2 ^ w) : ∀ v ∈ ws.map Prod.snd, v < 2 ^ w := by
  simp only [Latch.values, List.mem_cons, List.not_mem_nil, or_false, forall_eq_or_imp, forall_eq] at hl
  obtain ⟨hrd, h1, h2, h3, hry, hkn, hke, hkd⟩ := hl
  have hgcd : Nat.gcd l.rs1 l.rs2 < 2 ^ w := by
    rcases Nat.eq_zero_or_pos l.rs1 with e | e
    · rw [e, Nat.gcd_zero_left]; exact h2
    · exact (Nat.gcd_le_left _ e).trans_lt h1
  have hmod : ∀ a n : Nat, n ≠ 0 → n < 2 ^ w → a % n < 2 ^ w :=
    fun a n hn hlt => (Nat.mod_lt a (Nat.pos_of_ne_zero hn)).trans hlt
  have hinv : ∀ a n : Nat, n ≠ 0 → n < 2 ^ w → inverseMod a n < 2 ^ w :=
    fun a n hn hlt => (inverseMod_lt a hn).trans hlt
  unfold execResult at h
  split at h
  · cases i <;> simp only [rsaResult, Result.withModulus] at h <;> (repeat' split at h) <;> cases h <;>
      simp only [List.map_cons, List.map_nil, List.mem_cons, List.not_mem_nil, or_false, forall_eq_or_imp, forall_eq,
        false_imp_iff, implies_true, egcd_gcd, tcW_lt, and_true, modexp_eq] <;>
      first
        | assumption
        | exact hmod _ _ ‹_› ‹_›
        | exact hinv _ _ ‹_› ‹_›
  · cases h

end Sys2Proof.Machine
end

