-- ==== Sys2Proof/Laws/PerInstr.lean ====
section
/-! SUPPORT. Per-command facts about the encoding, one lemma per constructor. -/

/-- The fixed bits of a command's word are its opcode: OP holds the code of the opcode map and every must-be-zero bit of
its format is 0 (30_encoding.md R66, R69, R75). -/
def Sys2Proof.Laws.FixedBits.Statement (i : Sys2Proof.Instr) : Prop :=
  Sys2Proof.opField (Sys2Proof.encode i) = i.op.code ∧
    Sys2Proof.encode i &&& i.op.format.mask = i.op.code.setWidth 32

namespace Sys2Proof.Laws.FixedBits

theorem nop : Statement .nop :=
  ⟨rfl, rfl⟩

theorem mov (rd rs1 : RegIdx) : Statement (.mov rd rs1) :=
  ⟨opField_encodeFields .., encodeFields_and_mask_r2 ..⟩

theorem gcd (rd rs1 rs2 : RegIdx) : Statement (.gcd rd rs1 rs2) :=
  ⟨opField_encodeFields .., encodeFields_and_mask_r3 ..⟩

theorem xgcd (rd rx ry rs1 rs2 : RegIdx) : Statement (.xgcd rd rx ry rs1 rs2) :=
  ⟨opField_encodeFields .., encodeFields_and_mask_x ..⟩

theorem inv (rd rs1 rs2 : RegIdx) : Statement (.inv rd rs1 rs2) :=
  ⟨opField_encodeFields .., encodeFields_and_mask_r3 ..⟩

theorem modred (rd rs1 rs2 : RegIdx) : Statement (.modred rd rs1 rs2) :=
  ⟨opField_encodeFields .., encodeFields_and_mask_r3 ..⟩

theorem modmul (rd rs1 rs2 rs3 : RegIdx) : Statement (.modmul rd rs1 rs2 rs3) :=
  ⟨opField_encodeFields .., encodeFields_and_mask_r4 ..⟩

theorem montmul (rd rs1 rs2 rs3 : RegIdx) : Statement (.montmul rd rs1 rs2 rs3) :=
  ⟨opField_encodeFields .., encodeFields_and_mask_r4 ..⟩

theorem modexp (rd rs1 rs2 rs3 : RegIdx) : Statement (.modexp rd rs1 rs2 rs3) :=
  ⟨opField_encodeFields .., encodeFields_and_mask_r4 ..⟩

theorem rsaenc (rd rs1 : RegIdx) : Statement (.rsaenc rd rs1) :=
  ⟨opField_encodeFields .., encodeFields_and_mask_r2 ..⟩

theorem rsadec (rd rs1 : RegIdx) : Statement (.rsadec rd rs1) :=
  ⟨opField_encodeFields .., encodeFields_and_mask_r2 ..⟩

end Sys2Proof.Laws.FixedBits
end

