-- ==== Sys2Proof/Laws/Window.lean ====
section
/-! SUPPORT. The window map at a big register's words, and words of a big-register value. -/
namespace Sys2Proof.Machine

/-- The offset of word i of big register r reaches exactly that word (20_memory.md R48). -/
theorem locate_bigOffset {r : RegIdx} {i : Nat} (hr : namesReg r = true) (hi : i < 128) :
    locate (bigOffset r i) = some (.bigWord r i) := by
  have h := (namesReg_iff r).1 hr
  unfold locate bigOffset
  rw [if_neg (by omega), if_neg (by omega), if_pos (by omega)]
  have h1 : (0x400 + 0x200 * r.toNat + 4 * i - 0x400) / 0x200 = r.toNat := by omega
  have h2 : (0x400 + 0x200 * r.toNat + 4 * i - 0x400) % 0x200 / 4 = i := by omega
  rw [h1, h2]
  simp

/-- Only aligned offsets inside the window are located (20_memory.md R50). -/
theorem locate_eq_none_iff (off : Nat) : locate off = none ↔ off % 4 ≠ 0 ∨ 0x2000 ≤ off := by
  unfold locate
  constructor
  · intro h
    by_contra hc
    rw [if_neg hc] at h
    split at h
    · split at h <;> cases h
    · split at h <;> cases h
  · intro h; rw [if_pos h]

/-- A located big-register word has a named register, a word index of its window, and that word's offset
(20_memory.md R47, R48). -/
theorem locate_bigWord {off i : Nat} {r : RegIdx} (h : locate off = some (.bigWord r i)) :
    namesReg r = true ∧ i < 128 ∧ off = bigOffset r i := by
  unfold locate at h
  split at h
  · cases h
  · split at h
    · split at h <;> cases h
    · split at h
      · cases h
        have hn : (BitVec.ofNat 4 ((off - 0x400) / 0x200)).toNat = (off - 0x400) / 0x200 := by
          rw [BitVec.toNat_ofNat, Nat.mod_eq_of_lt (by omega)]
        refine ⟨(namesReg_iff _).2 (by rw [hn]; omega), by omega, ?_⟩
        unfold bigOffset
        rw [hn]
        omega
      · cases h

/-- CTRL is at one offset (10_state.md R24). -/
theorem locate_ctrl {off : Nat} (h : locate off = some .ctrl) : off = 0x008 := by
  unfold locate at h
  split at h
  · cases h
  · split at h
    · split at h <;> first | rfl | cases h
    · split at h <;> cases h

/-- CMD is at one offset (10_state.md R24). -/
theorem locate_cmd {off : Nat} (h : locate off = some .cmd) : off = 0x010 := by
  unfold locate at h
  split at h
  · cases h
  · split at h
    · split at h <;> first | rfl | cases h
    · split at h <;> cases h

/-- A written word reads back (20_memory.md R48). -/
theorem wordAt_setWordAt_self (v i : Nat) (w : Word) : wordAt (setWordAt v i w) i = w := by
  have hw := w.isLt
  have hlt : v % 2 ^ (32 * i) < 2 ^ (32 * i) := Nat.mod_lt _ (by positivity)
  have hp : 2 ^ (32 * (i + 1)) = 2 ^ 32 * 2 ^ (32 * i) := by
    rw [← pow_add, show 32 + 32 * i = 32 * (i + 1) by ring]
  have hdiv : setWordAt v i w / 2 ^ (32 * i) = v / 2 ^ (32 * (i + 1)) * 2 ^ 32 + w.toNat := by
    unfold setWordAt
    rw [hp, show v / (2 ^ 32 * 2 ^ (32 * i)) * (2 ^ 32 * 2 ^ (32 * i)) + w.toNat * 2 ^ (32 * i) + v % 2 ^ (32 * i) =
      (v / (2 ^ 32 * 2 ^ (32 * i)) * 2 ^ 32 + w.toNat) * 2 ^ (32 * i) + v % 2 ^ (32 * i) by ring]
    rw [Nat.add_comm _ (v % _), Nat.add_mul_div_right _ _ (by positivity), Nat.div_eq_of_lt hlt, Nat.zero_add]
  apply BitVec.eq_of_toNat_eq
  rw [wordAt, BitVec.toNat_ofNat, hdiv]
  omega

/-- A word write inside the register keeps it below 2^W. -/
theorem setWordAt_lt {v i k : Nat} (w : Word) (hv : v < 2 ^ (32 * k)) (hi : i < k) :
    setWordAt v i w < 2 ^ (32 * k) := by
  obtain ⟨d, rfl⟩ : ∃ d, k = i + 1 + d := ⟨k - (i + 1), by omega⟩
  have hw : w.toNat + 1 ≤ 2 ^ 32 := w.isLt
  have hp : 2 ^ (32 * (i + 1)) = 2 ^ 32 * 2 ^ (32 * i) := by
    rw [← pow_add, show 32 + 32 * i = 32 * (i + 1) by ring]
  have hk : 2 ^ (32 * (i + 1 + d)) = 2 ^ (32 * (i + 1)) * 2 ^ (32 * d) := by
    rw [← pow_add, show 32 * (i + 1) + 32 * d = 32 * (i + 1 + d) by ring]
  have hlt : v % 2 ^ (32 * i) < 2 ^ (32 * i) := Nat.mod_lt _ (Nat.two_pow_pos _)
  rw [hk] at hv ⊢
  have hdiv : v / 2 ^ (32 * (i + 1)) + 1 ≤ 2 ^ (32 * d) := Nat.div_lt_of_lt_mul hv
  unfold setWordAt
  generalize 2 ^ (32 * d) = D at *
  generalize 2 ^ (32 * (i + 1)) = P at *
  generalize 2 ^ (32 * i) = L at *
  generalize (2 : Nat) ^ 32 = B at *
  calc v / P * P + w.toNat * L + v % L < v / P * P + (w.toNat + 1) * L := by rw [add_mul w.toNat]; omega
    _ ≤ v / P * P + B * L := by gcongr
    _ = (v / P + 1) * P := by rw [hp]; ring
    _ ≤ D * P := by gcongr
    _ = P * D := by ring

end Sys2Proof.Machine
end

