-- ==== Sys2Proof/Laws/Step.lean ====
section
/-! SUPPORT. Everything a turn can do, said once, and the induction that every invariant goes through. -/
namespace Sys2Proof.Machine

/-- What the Engine's turn leads to, as a state: nothing while BUSY = 0, otherwise the completion of the latched word,
with its command's result or with ILLEGAL (10_state.md R38). -/
def State.afterEngine (s : State) : State :=
  if s.busy then
    match decode s.latch.word with
    | .ok i => s.complete (execResult i s.latch s.width)
    | .error _ => s.complete (.error .illegal)
  else s

theorem engineTurn_eq (s : State) : engineTurn s = .next s.afterEngine := by
  unfold engineTurn State.afterEngine
  split
  · cases decode s.latch.word with
    | ok i => exact exec_eq i s
    | error e => rfl
  · rfl

/-- What a turn leads to, as a state. -/
def State.afterTurn (s : State) : Turn → State
  | .host => s.hostTurn
  | .engine => s.afterEngine
  | .resetPin => s.blockReset

theorem takeTurn_eq (t : Turn) (s : State) : takeTurn t s = .next (s.afterTurn t) := by
  cases t
  · rfl
  · exact engineTurn_eq s
  · rfl

/-- What a step leads to, as a state: the next turn of the schedule, or the owed completion, or the Host
(70_reset_and_hazards.md R178). -/
def State.afterStep (s : State) : State :=
  match s.schedule with
  | t :: rest => ({ s with schedule := rest } : State).afterTurn t
  | [] => s.afterTurn (if s.busy then .engine else .host)

/-- A step is the next turn, taken off the schedule. -/
theorem State.afterStep_eq (s : State) :
    s.afterStep = ({ s with schedule := s.schedule.tail } : State).afterTurn s.nextTurn := by
  unfold State.afterStep State.nextTurn
  cases h : s.schedule with
  | cons t rest => rfl
  | nil =>
    have e : ({ s with schedule := [] } : State) = s := by rw [← h]
    simp only [List.tail_nil, e]

/-- A step always answers a next state, and this one. -/
theorem step_eq (s : State) : step s = .next s.afterStep := by
  unfold step State.afterStep
  cases s.schedule with
  | cons t rest => exact takeTurn_eq _ _
  | nil =>
    show (if s.busy then takeTurn .engine s else takeTurn .host s) =
      .next (s.afterTurn (if s.busy then .engine else .host))
    split <;> exact takeTurn_eq _ _

@[simp] theorem stepN_zero (s : State) : stepN 0 s = s := rfl

theorem stepN_succ (n : Nat) (s : State) : stepN (n + 1) s = stepN n s.afterStep := by
  rw [stepN, step_eq]

theorem stepN_add (m n : Nat) : ∀ s : State, stepN (m + n) s = stepN n (stepN m s) := by
  induction m with
  | zero => intro s; simp
  | succ m ih => intro s; rw [Nat.succ_add, stepN_succ, ih, stepN_succ]

/-- Everything a turn can do to a state, change by change. A property closed under these is kept by every step. -/
structure Closed (P : State → Prop) : Prop where
  /-- the run's fields change; the fault record stays or takes ACCESS_FAULT -/
  run : ∀ s (fr : Option Fault) (ops : List HostOp) (sched : List Turn) (obs : List Observation) (n : Nat), P s →
    (fr = s.faultRecord ∨ fr = some .accessFault) →
    P { s with faultRecord := fr, hostOps := ops, schedule := sched, observed := obs, draws := n }
  /-- OVR and the interrupt bits change -/
  flags : ∀ s (a b c : Bool), P s → P { s with ovr := a, doneEn := b, donePend := c }
  /-- a big-register word is written while idle -/
  write : ∀ s (r : RegIdx) (i : Nat) (v : Word), P s → s.busy = false → namesReg r = true → i < s.nwords →
    P (s.setReg r (setWordAt (s.reg r) i v))
  /-- a command is accepted while idle -/
  accept : ∀ s (v : Word), P s → s.busy = false → P (s.accept v)
  /-- a command completes -/
  complete : ∀ s (i : Instr), P s → s.busy = true → decode s.latch.word = .ok i →
    P (s.complete (execResult i s.latch s.width))
  /-- a word that is no command completes -/
  illegal : ∀ s, P s → s.busy = true → P (s.complete (.error .illegal))
  /-- the block is reset -/
  reset : ∀ s, P s → P s.blockReset

variable {P : State → Prop}

theorem Closed.writeLoc (h : Closed P) {s : State} (hs : P s) {l : Location} (v : Word)
    (hl : ∀ r i, l = .bigWord r i → namesReg r = true) : P (s.writeLoc l v) := by
  cases l with
  | id | param | status | reserved => exact hs
  | ctrl =>
    simp only [State.writeLoc, State.writeCtrl]
    split
    · exact h.reset s hs
    · split
      · exact h.flags s false s.doneEn s.donePend hs
      · exact hs
  | cmd =>
    simp only [State.writeLoc, State.writeCmd]
    split
    · exact h.flags s true s.doneEn s.donePend hs
    · exact h.accept s v hs (by simpa using ‹¬s.busy = true›)
  | irqEn => exact h.flags s s.ovr (v.getLsbD 0) s.donePend hs
  | irqPend =>
    simp only [State.writeLoc]
    split
    · exact h.flags s s.ovr s.doneEn false hs
    · exact hs
  | bigWord r i =>
    simp only [State.writeLoc, State.writeBigWord]
    split
    · exact hs
    · split
      · exact h.flags s true s.doneEn s.donePend hs
      · exact h.write s r i v hs (by simpa using ‹¬s.busy = true›) (hl r i rfl) (by omega)

/-- A read changes at most the number of draws (20_memory.md R53, 70_reset_and_hazards.md R173). -/
theorem readLoc_snd (s : State) (l : Location) : ∃ n, (s.readLoc l).2 = { s with draws := n } := by
  cases l <;> try exact ⟨s.draws, rfl⟩
  simp only [State.readLoc]
  split
  · exact ⟨s.draws, rfl⟩
  · split
    · exact ⟨s.draws + 1, rfl⟩
    · exact ⟨s.draws, rfl⟩

/-- A Host read changes at most the run's fields (20_memory.md R53). -/
theorem hostRead_run (s : State) (width off : Nat) :
    ∃ fr obs n, (fr = s.faultRecord ∨ fr = some .accessFault) ∧
      s.hostRead width off = { s with faultRecord := fr, observed := obs, draws := n } := by
  unfold State.hostRead
  split
  · rename_i l _
    obtain ⟨n, hn⟩ := readLoc_snd s l
    exact ⟨s.faultRecord, _, n, .inl rfl, by rw [hn]; rfl⟩
  · exact ⟨_, _, _, .inr rfl, rfl⟩

/-- Everything the Host's turn can do: it changes only the run's fields, or it is the next line's good write. -/
theorem hostTurn_cases (s : State) :
    (∃ fr ops obs n, (fr = s.faultRecord ∨ fr = some .accessFault) ∧
      s.hostTurn = { s with faultRecord := fr, hostOps := ops, observed := obs, draws := n }) ∨
    ∃ off l v rest, s.hostOps = .write 32 off v :: rest ∧ locate off = some l ∧
      s.hostTurn = ({ s with hostOps := rest } : State).writeLoc l v := by
  have poll : ∀ rest line, ∃ fr ops obs n, (fr = s.faultRecord ∨ fr = some .accessFault) ∧
      ({ s with hostOps := rest } : State).hostPoll line =
        { s with faultRecord := fr, hostOps := ops, observed := obs, draws := n } := by
    intro rest line
    obtain ⟨fr, obs, n, hfr, e⟩ := hostRead_run { s with hostOps := rest } 32 0x014
    refine ⟨fr, if s.statusWord.getLsbD 0 then line :: rest else rest, obs, n, hfr, ?_⟩
    have b : ({ s with hostOps := rest } : State).statusWord = s.statusWord := rfl
    simp only [State.hostPoll, e, b]
    split <;> rfl
  unfold State.hostTurn
  split
  · exact .inl ⟨s.faultRecord, s.hostOps, s.observed, s.draws, .inl rfl, rfl⟩
  · rename_i op rest hops
    cases op with
    | read width off =>
      obtain ⟨fr, obs, n, hfr, e⟩ := hostRead_run { s with hostOps := rest } width off
      exact .inl ⟨fr, rest, obs, n, hfr, e⟩
    | write width off v =>
      simp only [State.hostWrite, locateAccess]
      by_cases hw : width = 32
      · subst hw
        cases hl : locate off with
        | some l => exact .inr ⟨off, l, v, rest, hops, hl, by simp⟩
        | none => exact .inl ⟨_, rest, _, _, .inr rfl, by simp; rfl⟩
      · exact .inl ⟨_, rest, _, _, .inr rfl, by simp [hw]; rfl⟩
    | wait => exact .inl (poll rest .wait)
    | waitIrq =>
      cases hi : s.irq with
      | true =>
        obtain ⟨fr, ops, obs, n, hfr, e⟩ := poll rest .waitIrq
        exact .inl ⟨fr, ops, obs, n, hfr, by simpa using e⟩
      | false => exact .inl ⟨s.faultRecord, s.hostOps, s.observed, s.draws, .inl rfl, by simp⟩
    | check skip =>
      obtain ⟨fr, obs, n, hfr, e⟩ := hostRead_run { s with hostOps := rest } 32 0x014
      refine .inl ⟨fr, if (verdictOf s.statusWord).passed then rest else rest.drop skip,
        .verdict (verdictOf s.statusWord) :: obs, n, hfr, ?_⟩
      have b : ({ s with hostOps := rest } : State).statusWord = s.statusWord := rfl
      simp only [State.hostCheck, e, b]
      split <;> rfl

theorem Closed.hostTurn (h : Closed P) {s : State} (hs : P s) : P s.hostTurn := by
  obtain ⟨fr, ops, obs, n, hfr, e⟩ | ⟨off, l, v, rest, _, hl, e⟩ := hostTurn_cases s
  · rw [e]
    exact h.run s fr ops s.schedule obs n hs hfr
  · rw [e]
    have h0 : P { s with hostOps := rest } := h.run s s.faultRecord rest s.schedule s.observed s.draws hs (.inl rfl)
    exact h.writeLoc h0 v fun r i hb => (locate_bigWord (hl.trans (congrArg some hb))).1

/-- A property closed under everything a turn can do is kept by every step. -/
theorem Closed.afterStep (h : Closed P) {s : State} (hs : P s) : P s.afterStep := by
  have turn : ∀ (s : State) (t : Turn), P s → P (s.afterTurn t) := by
    intro s t hs
    cases t with
    | host => exact h.hostTurn hs
    | resetPin => exact h.reset s hs
    | engine =>
      simp only [State.afterTurn, State.afterEngine]
      split
      · split
        · exact h.complete s _ hs ‹_› ‹_›
        · exact h.illegal s hs ‹_›
      · exact hs
  unfold State.afterStep
  split
  · exact turn _ _ (h.run s s.faultRecord s.hostOps _ s.observed s.draws hs (.inl rfl))
  · exact turn _ _ hs

theorem Closed.step (h : Closed P) {s t : State} (hs : P s) (ht : Machine.step s = .next t) : P t := by
  rw [step_eq] at ht
  cases ht
  exact h.afterStep hs

end Sys2Proof.Machine
end

