-- ==== Sys2Proof/Tests/Slice0.lean ====
section
/-! SUPPORT. Tests: expected results are the encodings of 30_encoding.md and the vectors of 95_test_vectors.md; and one
witness for the hypotheses of every statement. -/
namespace Sys2Proof.Tests
open Sys2Proof Sys2Proof.Machine

/-! ### Helpers -/

/-- The reset state (K = 2) with some big registers written. -/
def regs (l : List (RegIdx × Nat)) : State := { State.reset with x := writeRegs State.reset.x l }

/-- The next state of an outcome. -/
def nextOf (o : Host.Outcome State Fault Refusal) : State :=
  match o with
  | .next t => t
  | .fault _ => State.reset
  | .refused _ => State.reset

/-- The state after the one step that completes the word `w`, accepted with these registers. -/
def ran (l : List (RegIdx × Nat)) (w : Nat) : State := nextOf (step ((regs l).withFetchWord 32 w))

/-- STATUS and some big registers of a state. -/
def see (s : State) (rs : List RegIdx) : Word × List Nat := (s.statusWord, rs.map s.reg)

/-- The largest value of a register at K = 2. -/
def top : Nat := 0xFFFFFFFFFFFFFFFF

/-- A word from its fields, bit 31 first: reserved, RY, RS3 or RX, RS2, RS1, RD, OP (30_encoding.md R65). -/
def bits (ry rs3x rs2 rs1 rd : BitVec 4) (op : BitVec 8) : Word := 0#4 ++ ry ++ rs3x ++ rs2 ++ rs1 ++ rd ++ op

/-- The command in flight in the hazard vectors V134 to V143. -/
def running : State := (regs [(0, 65), (1, 17), (2, 3233)]).accept 0x00210330

/-! ### Well-formedness: a reserved index in each used field is refused (30_encoding.md R70) -/

theorem test_wf_refuses_reserved_destinations :
    [Instr.mov 11 0, .gcd 12 0 0, .xgcd 13 0 0 0 0, .xgcd 0 14 0 0 0, .xgcd 0 0 15 0 0, .inv 11 0 0, .modred 15 0 0,
      .modmul 11 0 0 0, .montmul 12 0 0 0, .modexp 13 0 0 0, .rsaenc 14 0, .rsadec 15 0].any Instr.wf = false := by
  decide

theorem test_wf_refuses_reserved_sources :
    [Instr.mov 0 11, .gcd 0 12 0, .gcd 0 0 13, .xgcd 0 0 0 14 0, .xgcd 0 0 0 0 15, .inv 0 11 0, .inv 0 0 11,
      .modred 0 15 0, .modred 0 0 15, .modmul 0 11 0 0, .modmul 0 0 11 0, .modmul 0 0 0 11, .montmul 0 12 0 0,
      .montmul 0 0 12 0, .montmul 0 0 0 12, .modexp 0 13 0 0, .modexp 0 0 13 0, .modexp 0 0 0 13, .rsaenc 0 14,
      .rsadec 0 15].any Instr.wf = false := by
  decide

theorem test_wf_accepts_every_register : (Instr.xgcd 10 9 8 7 0).wf = true ∧ Instr.nop.wf = true := by decide

/-! ### Decoding, from words written out field by field (30_encoding.md R65, R66, R69, R76) -/

theorem test_decode_nop : decode (bits 0 0 0 0 0 0x00) = .ok .nop := by decide
theorem test_decode_mov : decode (bits 0 0 0 0 10 0x01) = .ok (.mov 10 0) := by decide
theorem test_decode_gcd : decode (bits 0 0 1 9 2 0x10) = .ok (.gcd 2 9 1) := by decide
theorem test_decode_xgcd : decode (bits 4 3 1 0 2 0x11) = .ok (.xgcd 2 3 4 0 1) := by decide
theorem test_decode_inv : decode (bits 0 0 1 9 10 0x12) = .ok (.inv 10 9 1) := by decide
theorem test_decode_modred : decode (bits 0 0 8 0 1 0x20) = .ok (.modred 1 0 8) := by decide
theorem test_decode_modmul : decode (bits 0 2 1 0 3 0x21) = .ok (.modmul 3 0 1 2) := by decide
theorem test_decode_montmul : decode (bits 0 2 1 0 3 0x22) = .ok (.montmul 3 0 1 2) := by decide
theorem test_decode_modexp : decode (bits 0 8 9 0 3 0x30) = .ok (.modexp 3 0 9 8) := by decide
theorem test_decode_rsaenc : decode (bits 0 0 0 0 1 0x40) = .ok (.rsaenc 1 0) := by decide
theorem test_decode_rsadec : decode (bits 0 0 0 1 2 0x41) = .ok (.rsadec 2 1) := by decide

/-- The written-out words are the hexadecimal words of 95_test_vectors.md section 2.6. -/
theorem test_written_words :
    [bits 0 0 0 0 10 0x01, bits 0 0 1 9 2 0x10, bits 4 3 1 0 2 0x11, bits 0 0 1 9 10 0x12, bits 0 0 8 0 1 0x20,
      bits 0 2 1 0 3 0x21, bits 0 2 1 0 3 0x22, bits 0 8 9 0 3 0x30, bits 0 0 0 0 1 0x40, bits 0 0 0 1 2 0x41] =
    [0x00000A01, 0x00019210, 0x04310211, 0x00019A12, 0x00080120, 0x00210321, 0x00210322, 0x00890330, 0x00000140,
      0x00001241] := by decide

/-- V103 to V106: the opcode is not assigned. -/
theorem test_unassigned_opcodes :
    [0x02, 0x0F, 0x42, 0xFF].map decode = List.replicate 4 (.error .unassignedOpcode) := by decide

/-- V107 to V109, V115 to V117: a must-be-zero bit is set. -/
theorem test_must_be_zero :
    [0x00000100, 0x10000000, 0x00010101, 0x01210321, 0x00B00A40, 0x10800022].map decode =
      List.replicate 6 (.error .mustBeZero) := by decide

/-- V110 to V114: a used field holds a reserved index. -/
theorem test_reserved_register :
    [0x00000B01, 0x0000F140, 0x00B10322, 0x0C310211, 0x00C10330].map decode =
      List.replicate 5 (.error .reservedRegister) := by decide

/-- The lowest offset holds the low byte (20_memory.md R49). -/
theorem test_decode_bytes : decodeBytes 0x11 0x02 0x31 0x04 = .ok (.xgcd 2 3 4 0 1) := by decide

theorem test_decode_table_word : decodeTableWord 32 0x04310211 = some (.xgcd 2 3 4 0 1) := by decide

/-! ### Commands: one step each, vectors of 95_test_vectors.md section 2 -/

/-- V1. -/
theorem test_nop : see (ran [(0, 5)] 0x00000000) [0] = (0x02, [5]) ∧ (ran [] 0).donePend = true := by decide
/-- V5: the pattern is copied as it stands. -/
theorem test_mov_copies_pattern : see (ran [(5, 0xFFFFFFFFFFFFFFF7)] 0x00005401) [4, 5] =
    (0x02, [0xFFFFFFFFFFFFFFF7, 0xFFFFFFFFFFFFFFF7]) := by decide
/-- V3. -/
theorem test_mov_to_key : see (ran [(0, 2753)] 0x00000A01) [10] = (0x02, [2753]) := by decide
/-- V12. -/
theorem test_gcd_full_width : see (ran [(0, 0x8000000000000000), (1, 0x0000010000000000)] 0x00010210) [2] =
    (0x02, [0x0000010000000000]) := by decide
/-- V9. -/
theorem test_gcd_zeros : see (ran [] 0x00010210) [2] = (0x02, [0]) := by decide
/-- V14: s = -9, t = 47. -/
theorem test_xgcd_negative_coefficient : see (ran [(0, 240), (1, 46)] 0x04310211) [2, 3, 4] =
    (0x02, [2, 0xFFFFFFFFFFFFFFF7, 47]) := by decide
/-- V27: every destination is r0, also a source. -/
theorem test_xgcd_last_write_stays : see (ran [(0, 240), (1, 46)] 0x00010011) [0, 1] = (0x02, [47, 46]) := by decide
/-- V30: a >= m is reduced. -/
theorem test_inv_reduces : see (ran [(0, 65537), (1, 3120)] 0x00010312) [3] = (0x02, [2753]) := by decide
/-- V33, with r3 = 99 kept. -/
theorem test_inv_not_invertible : see (ran [(0, 15), (1, 3120), (3, 99)] 0x00010312) [3] = (0x56, [99]) := by decide
/-- V46. -/
theorem test_modred_full_width : see (ran [(0, top), (2, 3233)] 0x00020120) [1] = (0x02, [2028]) := by decide
/-- V47. -/
theorem test_modred_zero_modulus : see (ran [(0, 5)] 0x00020120) [1] = (0x26, [0]) := by decide
/-- V50: the 128-bit product is exact. -/
theorem test_modmul_exact_product : see (ran [(0, top), (1, top), (2, top - 2)] 0x00210321) [3] = (0x02, [4]) := by
  decide
/-- V59: the destination is a source. -/
theorem test_modmul_aliased : see (ran [(0, 992), (1, 65), (8, 3233)] 0x00810021) [0] = (0x02, [3053]) := by decide
/-- V60. -/
theorem test_montmul : see (ran [(0, 65), (1, 65), (2, 3233)] 0x00210322) [3] = (0x02, [794]) := by decide
/-- V67. -/
theorem test_montmul_even_modulus : see (ran [(0, 5), (1, 7), (2, 12)] 0x00210322) [3] = (0x36, [0]) := by decide
/-- V69. -/
theorem test_modexp : see (ran [(0, 65), (1, 17), (2, 3233)] 0x00210330) [3] = (0x02, [2790]) := by decide
/-- V71: 0^0 = 1. -/
theorem test_modexp_zero_exponent : see (ran [(2, 3233)] 0x00210330) [3] = (0x02, [1]) := by decide
/-- V100: RD = KN, and the latched KN was used. -/
theorem test_rsaenc_over_modulus : see (ran [(8, 3233), (9, 17), (0, 65)] 0x00000840) [8] = (0x02, [2790]) := by decide
/-- V92: a block equal to the modulus. -/
theorem test_rsaenc_range : see (ran [(8, 3233), (9, 17), (0, 3233)] 0x00000140) [1] = (0x46, [0]) := by decide
/-- V102. -/
theorem test_rsadec : see (ran [(8, 3233), (10, 2753), (1, 2790)] 0x00001241) [2] = (0x02, [65]) := by decide
/-- V101: RS1 = KN is never below KN. -/
theorem test_rsadec_of_modulus : see (ran [(8, 3233), (10, 2753)] 0x00008141) [1] = (0x46, [0]) := by decide
/-- V117: ILLEGAL comes before MODZERO. -/
theorem test_illegal_before_modzero : see (ran [(0, 5)] 0x10800022) [0] = (0x16, [5]) := by decide
/-- V103: CMD keeps the illegal word. -/
theorem test_illegal_stays_in_cmd : (ran [(0, 5)] 0x00000002).cmd = 0x00000002 := by decide

/-- The Montgomery radix follows the width: Rinv(3233) at K = 1, 2, 4 (95_test_vectors.md section 2.3). -/
theorem test_rinv_follows_width : [32, 64, 128].map (rinv · 3233) = [1296, 1689, 1215] := by decide

/-! ### The register window (95_test_vectors.md sections 2.7 to 2.9) -/

/-- V118, V119, V121, V122. -/
theorem test_constant_reads :
    [0x000, 0x004, 0x008, 0x00C, 0x020, 0x1A00].map (fun o => (State.reset.hostRead 32 o).observed) =
      [[.value 0x000 0x52534131], [.value 0x004 2], [.value 0x008 0], [.value 0x00C 0], [.value 0x020 0],
        [.value 0x1A00 0]] := by decide

/-- V123: word 2 is not below K. -/
theorem test_word_above_k_is_ignored : State.reset.hostWrite 32 0x408 0x1234 = State.reset := by decide

/-- V125, the second write: the high word, the low word kept. -/
theorem test_high_word_write : ((regs [(1, 0xFFFFFFFF)]).hostWrite 32 0x604 1).reg 1 = 0x00000001FFFFFFFF := by decide

/-- V126, V127: the key windows. -/
theorem test_key_windows :
    ((regs [(8, 3233)]).hostRead 32 0x1400).observed = [.value 0x1400 0xCA1] ∧
      ((regs [(10, 2753)]).hostRead 32 0x1800).observed = [.value 0x1800 0xAC1] := by decide

/-- V128. -/
theorem test_bad_accesses :
    (State.reset.hostRead 16 0x400).faultRecord = some .accessFault ∧
      (State.reset.hostRead 32 0x402).faultRecord = some .accessFault ∧
      (State.reset.hostRead 32 0x2000).faultRecord = some .accessFault ∧
      (State.reset.hostRead 32 0x1FFC).faultRecord = none := by decide

/-- V129 to V131: enable, complete, write 0, write 1. -/
theorem test_interrupt :
    let s : State := (State.reset.hostWrite 32 0x018 1).complete (.commit [])
    s.irq = true ∧ (s.hostWrite 32 0x01C 0).irq = true ∧ (s.hostWrite 32 0x01C 1).irq = false ∧
      (s.hostWrite 32 0x018 0).irq = false ∧ (s.hostWrite 32 0x018 0).donePend = true := by decide

/-- V134, V135. -/
theorem test_busy_cmd_write :
    running.statusWord = 0x01 ∧ (running.hostWrite 32 0x010 0).statusWord = 0x09 ∧
      (running.hostWrite 32 0x010 0).cmd = 0x00210330 := by decide

/-- V136, V138. -/
theorem test_busy_register_access :
    (running.hostWrite 32 0x400 99).ovr = true ∧ (running.hostWrite 32 0x400 99).reg 0 = 65 ∧
      (running.hostRead 32 0x408).observed = [.value 0x408 0] := by decide

/-- V139, V140: completion with OVR set, then OVRCLR. -/
theorem test_completion_keeps_overrun :
    let s := nextOf (step (running.hostWrite 32 0x010 0))
    see s [3, 0] = (0x0A, [2790, 65]) ∧ (s.hostWrite 32 0x008 2).statusWord = 0x02 := by decide

/-- V141, V143: a soft reset while busy. -/
theorem test_soft_reset_while_busy :
    running.hostWrite 32 0x008 1 = State.reset ∧ (running.hostWrite 32 0x010 0).hostWrite 32 0x008 3 = State.reset := by
  decide

/-- The layout of the window: the last word of R0, the first of R1, the last of KD, and what follows it. -/
theorem test_window_edges :
    [0x5FC, 0x600, 0x19FC, 0x1A00, 0x3FC, 0x1FFC].map locate =
      [some (.bigWord 0 127), some (.bigWord 1 0), some (.bigWord 10 127), some .reserved, some .reserved,
        some .reserved] := by decide

/-- WRB and RDB of 64-bit values, words in order (00_scope.md R18). -/
theorem test_wrb_words : wrb 2 1 0x00000001FFFFFFFF = [.write 32 0x600 0xFFFFFFFF, .write 32 0x604 1] ∧
    rdb 2 8 = [.read 32 0x1400, .read 32 0x1404] ∧ assembleWords [0xFFFFFFFF, 1] = 0x00000001FFFFFFFF := by decide

/-- The protocol of 70_reset_and_hazards.md R174, line by line, at K = 1, in its two forms. -/
theorem test_driver_lines :
    driver false 1 [(0, 65)] (.rsaenc 1 0) =
      [.wait, .write 32 0x400 65, .write 32 0x010 0x00000140, .wait, .check 1, .read 32 0x600] ∧
    driver true 1 [(0, 65)] (.rsaenc 1 0) =
      [.wait, .write 32 0x400 65, .write 32 0x010 0x00000140, .waitIrq, .check 1, .read 32 0x600,
        .write 32 0x01C 1] := by decide

/-- STATUS values of 95_test_vectors.md: an overrun, RANGE, and NOTINV with an overrun. -/
theorem test_verdicts :
    [0x0A, 0x46, 0x5E, 0x02].map verdictOf = [⟨true, 0⟩, ⟨false, 4⟩, ⟨true, 5⟩, ⟨false, 0⟩] ∧
      [0x0A, 0x46, 0x5E, 0x02].map (fun w => (verdictOf w).passed) = [false, false, false, true] := by decide

/-! ### Assembly (30_encoding.md R78, R79) -/

theorem test_assemble :
    assemble ['X', 'G', 'C', 'D', ' ', 'r', '2', ',', ' ', 'R', '3', ',', 'r', '4', ',', 'r', '0', ',', 'k', 'd'] =
      some (.xgcd 2 3 4 0 10) := by decide

/-- V57: MODSQR r0, r0, kn. -/
theorem test_assemble_modsqr :
    (assemble ['M', 'O', 'D', 'S', 'Q', 'R', ' ', 'r', '0', ',', ' ', 'r', '0', ',', ' ', 'k', 'n']).map encode =
      some 0x00800021 := by decide

/-! ### Witnesses: concrete inputs that meet the hypotheses of each statement that has any -/

/-- A state in which every operand is usable: r0 = 65, r1 = 17, r2 = 3233, KN, KE, KD the key of section 1.1. -/
def keyed : State := regs [(0, 65), (1, 17), (2, 3233), (8, 3233), (9, 17), (10, 2753)]

/-- A latch with the given source values and key modulus. -/
def latched (a b c n : Nat) : State := { running with latch := { running.latch with rs1 := a, rs2 := b, rs3x := c, kn := n } }

theorem witness_EveryLegalCommandRoundTrips : (Instr.xgcd 10 0 10 0 10).wf = true := by decide

theorem witness_DecodedWordsReencode : decode 0x0AAAAA11 = .ok (.xgcd 10 10 10 10 10) := by decide

/-- One word for each cause of ILLEGAL. -/
theorem witness_IllegalWordIsAcceptedThenReported :
    State.reset.busy = false ∧ ¬ Claims.Legal 0x02 ∧ ¬ Claims.Legal 0x10000000 ∧ ¬ Claims.Legal 0x00000B01 := by
  unfold Claims.Legal
  decide

theorem witness_CmdWriteLatchesAndStarts :
    keyed.busy = false ∧ Field.rs1 ∈ usedFields 0x0000A140 ∧ (Field.rs1.of 0x0000A140).toNat ≤ 10 := by decide

theorem witness_CompletionRecordsOutcome : running.busy = true := by decide

theorem witness_StepRunsTheDecodedCommand :
    running.busy = true ∧ decode running.latch.word = .ok (.modexp 3 0 1 2) ∧ running.schedule = [] := by decide

theorem witness_StepRunsTheDecodedCommand_scheduled :
    ({ running with schedule := [.engine] } : State).busy = true ∧
      decode ({ running with schedule := [.engine] } : State).latch.word = .ok (.modexp 3 0 1 2) ∧
      ({ running with schedule := [.engine] } : State).schedule = .engine :: [] := by decide

theorem witness_IssuedCommandRuns :
    (Instr.mov 10 0).wf = true ∧ (keyed.withHost [issue (.mov 10 0)]).busy = false ∧
      (keyed.withHost [issue (.mov 10 0)]).schedule = [] ∧
      (keyed.withHost [issue (.mov 10 0)]).hostOps = issue (.mov 10 0) :: [] := by decide

theorem witness_MovCopiesItsSource : namesReg 10 = true ∧ namesReg 0 = true := by decide

theorem witness_GcdWritesTheGcd : namesReg 10 = true ∧ namesReg 0 = true ∧ namesReg 9 = true := by decide

theorem witness_GcdSourceOrderDoesNotMatter :
    keyed.busy = false ∧ namesReg 10 = true ∧ namesReg 0 = true ∧ namesReg 1 = true := by decide

theorem witness_XgcdWritesInOrder : (Instr.xgcd 10 10 10 0 1).wf = true := by decide

theorem witness_XgcdLeavesAnExactBezoutPair :
    running.Wf ∧ (Instr.xgcd 8 9 10 0 1).wf = true ∧ (8 : RegIdx) ≠ 9 ∧ (8 : RegIdx) ≠ 10 ∧ (9 : RegIdx) ≠ 10 := by
  decide

theorem witness_EgcdFollowsEuclid : (46 : Nat) ≠ 0 := by decide

theorem witness_InvWritesTheUniqueInverse :
    namesReg 10 = true ∧ namesReg 9 = true ∧ namesReg 1 = true ∧ (latched 17 3120 0 0).latch.rs2 ≠ 0 ∧
      Nat.gcd (latched 17 3120 0 0).latch.rs1 (latched 17 3120 0 0).latch.rs2 = 1 := by decide

theorem witness_InvReportsNotInvertible :
    namesReg 3 = true ∧ namesReg 0 = true ∧ namesReg 1 = true ∧ (latched 15 3120 0 0).latch.rs2 ≠ 0 ∧
      Nat.gcd (latched 15 3120 0 0).latch.rs1 (latched 15 3120 0 0).latch.rs2 ≠ 1 := by decide

/-- The three clauses together: every modulus is 0. -/
theorem witness_ZeroModulusIsReported :
    namesReg 3 = true ∧ namesReg 0 = true ∧ namesReg 1 = true ∧ namesReg 10 = true ∧ (latched 5 0 0 0).latch.rs2 = 0 ∧
      (latched 5 0 0 0).latch.rs3x = 0 ∧ (latched 5 0 0 0).latch.kn = 0 := by decide

theorem witness_ModredWritesTheResidue :
    namesReg 1 = true ∧ namesReg 0 = true ∧ namesReg 2 = true ∧ (latched 65537 1 0 0).latch.rs2 ≠ 0 := by decide

theorem witness_ModmulWritesTheExactProduct :
    (Instr.modmul 3 0 1 2).wf = true ∧ (latched 7 9 12 0).latch.rs3x ≠ 0 := by decide

theorem witness_MontgomeryRadixHasAUniqueInverse : 3233 % 2 = 1 ∧ 1 % 2 = 1 := by decide

theorem witness_MontmulWritesTheMontgomeryProduct :
    (Instr.montmul 3 0 1 2).wf = true ∧ (latched 65 65 1 0).latch.rs3x % 2 = 1 := by decide

theorem witness_EvenMontgomeryModulusIsReported :
    (Instr.montmul 3 0 1 2).wf = true ∧ (latched 5 7 12 0).latch.rs3x ≠ 0 ∧ (latched 5 7 12 0).latch.rs3x % 2 = 0 ∧
      1 ≤ (latched 5 7 12 0).nwords := by decide

theorem witness_MontgomeryIdentities : 3233 % 2 = 1 := by decide

theorem witness_ModexpWritesTheExactPower :
    (Instr.modexp 3 0 9 8).wf = true ∧ (latched 0 0 1 0).latch.rs3x ≠ 0 := by decide

/-- Both clauses at their boundary: the largest block admitted, and the modulus itself. -/
theorem witness_RsaencEncryptsOrReportsRange :
    namesReg 1 = true ∧ namesReg 0 = true ∧ (latched 3232 0 0 3233).latch.rs1 < (latched 3232 0 0 3233).latch.kn ∧
      (latched 3233 0 0 3233).latch.kn ≠ 0 ∧ (latched 3233 0 0 3233).latch.kn ≤ (latched 3233 0 0 3233).latch.rs1 := by
  decide

/-- Both clauses at their boundary, for KN = 1: 0 is admitted and 1 is not. -/
theorem witness_RsadecDecryptsOrReportsRange :
    namesReg 1 = true ∧ namesReg 0 = true ∧ (latched 0 0 0 1).latch.rs1 < (latched 0 0 0 1).latch.kn ∧
      (latched 1 0 0 1).latch.kn ≠ 0 ∧ (latched 1 0 0 1).latch.kn ≤ (latched 1 0 0 1).latch.rs1 := by decide

theorem witness_RsaCommandsAreModexpWithTheKeys :
    keyed.busy = false ∧ namesReg 8 = true ∧ namesReg 0 = true ∧ 1 ≤ keyed.reg regKN ∧ keyed.reg 0 < keyed.reg regKN := by
  decide

/-- The Host of the source's scenario: encrypt r0 to KE, then decrypt it to KD. -/
def roundTrip : State := keyed.withHost [issue (.rsaenc 9 0), issue (.rsadec 10 9)]

/-- The key of the source's scenario: p = 61, q = 53, e = 17, d = 2753, B = 65. -/
theorem witness_RsaRoundTripRestoresTheBlock :
    Nat.Prime 61 ∧ Nat.Prime 53 ∧ 61 ≠ 53 ∧ roundTrip.busy = false ∧ roundTrip.schedule = [] ∧
      roundTrip.hostOps = issue (.rsaenc 9 0) :: issue (.rsadec 10 9) :: [] ∧ namesReg 9 = true ∧
      (9 : RegIdx) ≠ regKN ∧ (9 : RegIdx) ≠ regKD ∧ namesReg 0 = true ∧ namesReg 10 = true ∧
      roundTrip.reg regKN = 61 * 53 ∧ roundTrip.reg regKE * roundTrip.reg regKD % ((61 - 1) * (53 - 1)) = 1 ∧
      roundTrip.reg 0 < 61 * 53 :=
  ⟨by norm_num, by norm_num, by decide⟩

theorem witness_ReservedIndexIsIllegalFirst : (Instr.xgcd 0 0 11 0 0).wf = false := by decide

theorem witness_CommandsChangeOnlyTheirDestinations :
    exec (.mov 1 0) running = .next (running.complete (.commit [(1, 65)])) ∧ namesReg 10 = true ∧
      (10 : RegIdx) ∉ (Instr.mov 1 0).dests := ⟨rfl, by decide⟩

theorem witness_CommandsChangeOnlyTheirDestinations_error :
    exec (.rsaenc 1 0) (latched 1 0 0 1) = .next ((latched 1 0 0 1).doneWith .range) ∧
      ((latched 1 0 0 1).doneWith .range).errcode ≠ .ok := ⟨rfl, by decide⟩

theorem witness_OutcomesDependOnTheLatchAlone :
    running.latch = { running with cmd := 0, done := true }.latch ∧
      running.nwords = { running with cmd := 0, done := true }.nwords ∧
      exec (.mov 1 0) running = .next (running.complete (.commit [(1, 65)])) ∧
      exec (.mov 1 0) { running with cmd := 0, done := true } =
        .next ({ running with cmd := 0, done := true }.complete (.commit [(1, 65)])) ∧
      (running.complete (.commit [(1, 65)])).errcode = .ok ∧ (1 : RegIdx) ∈ (Instr.mov 1 0).dests ∧
      namesReg 1 = true := ⟨rfl, rfl, rfl, rfl, by decide⟩

/-- Not the reset state: the interrupt is enabled and a NOP has completed. -/
def idleOnZeros : State := (State.reset.hostWrite 32 0x018 1).complete (.commit [])

theorem witness_CommandsOnResetValues :
    idleOnZeros.busy = false ∧ (∀ r, namesReg r = true → idleOnZeros.reg r = 0) ∧ 1 ≤ idleOnZeros.nwords ∧
      (Instr.gcd 10 0 1).wf = true ∧ (Instr.gcd 10 0 1).op ∈ [Op.mov, Op.gcd] ∧
      (Instr.xgcd 2 3 4 0 1).wf = true ∧ (2 : RegIdx) ≠ 3 ∧ (2 : RegIdx) ≠ 4 ∧ (3 : RegIdx) ≠ 4 ∧
      (Instr.rsaenc 1 0).wf = true ∧ (Instr.rsaenc 1 0).op ∉ [Op.nop, Op.mov, Op.gcd, Op.xgcd] := by decide

/-- Both clauses at their boundary: the last word below K = 2, the first not below it, and the last of the window. -/
theorem witness_BigRegisterWordsReadBack :
    keyed.busy = false ∧ namesReg 10 = true ∧ 1 < 128 ∧ 1 < keyed.nwords ∧ 2 < 128 ∧ keyed.nwords ≤ 2 ∧
      127 < 128 ∧ keyed.nwords ≤ 127 := by decide

theorem witness_WrbWritesTheWholeRegister :
    (keyed.withHost (wrb 2 10 top)).Wf ∧ (keyed.withHost (wrb 2 10 top)).busy = false ∧
      (keyed.withHost (wrb 2 10 top)).schedule = [] ∧ namesReg 10 = true ∧
      top < 2 ^ (keyed.withHost (wrb 2 10 top)).width ∧
      (keyed.withHost (wrb 2 10 top)).hostOps = wrb (keyed.withHost (wrb 2 10 top)).nwords 10 top ++ [] := by decide

theorem witness_BusyCmdWriteIsDropped : running.busy = true := by decide

theorem witness_BusyRegisterWriteIsDropped :
    running.busy = true ∧ namesReg 10 = true ∧ 1 < running.nwords ∧ running.nwords ≤ 2 ∧ 2 < 128 := by decide

theorem witness_BusyRegisterReadIsADraw :
    running.busy = true ∧ namesReg 0 = true ∧ 1 < running.nwords ∧ running.nwords ≤ 2 ∧ running.nwords ≤ 127 := by decide

/-- The ends of the three reserved ranges. -/
theorem witness_ReservedOffsetsReadZero :
    ∀ off ∈ [0x00C, 0x020, 0x3FC, 0x1A00, 0x1FFC], off % 4 = 0 ∧
      (off = 0x00C ∨ (0x020 ≤ off ∧ off ≤ 0x3FC) ∨ (0x1A00 ≤ off ∧ off ≤ 0x1FFC)) := by decide

theorem witness_ControlRegistersReadTheirFields : State.reset.nwords < 2 ^ 16 := by decide

/-- One word for each clause; 3 sets both bits. -/
theorem witness_CtrlWriteActions :
    (3#32).getLsbD 0 = true ∧ (2#32).getLsbD 0 = false ∧ (2#32).getLsbD 1 = true ∧ (4#32).getLsbD 0 = false ∧
      (4#32).getLsbD 1 = false := by decide

theorem witness_ResetLeavesTheResetValues :
    takeTurn .resetPin running = .next State.reset ∧ State.reset = running.hostWrite 32 0x008 1 ∧
      (State.reset = State.reset ∧ State.reset = State.reset) := ⟨rfl, rfl, rfl, rfl⟩

theorem witness_InterruptEnableAndAcknowledge :
    running.busy = true ∧ engineTurn running = .next (nextOf (engineTurn running)) := ⟨rfl, rfl⟩

/-- A width, an alignment and a bound that fail, and the last good offset. -/
theorem witness_BadAccessIsRecorded :
    (∀ p ∈ [(16, 0x400), (32, 0x402), (32, 0x2000)], p.1 ≠ 32 ∨ p.2 % 4 ≠ 0 ∨ 0x2000 ≤ p.2) ∧
      0x1FFC % 4 = 0 ∧ 0x1FFC < 0x2000 := by decide

theorem witness_FaultRecordAndParamAreKept :
    step { running with faultRecord := some .accessFault } =
        .next (nextOf (step { running with faultRecord := some .accessFault })) ∧
      ({ running with faultRecord := some .accessFault } : State).faultRecord = some .accessFault := ⟨rfl, rfl⟩

theorem witness_StepKeepsWellFormed : running.Wf ∧ step running = .next (nextOf (step running)) := ⟨by decide, rfl⟩

theorem witness_StepKeepsTheLatchCoherent :
    running.LatchCoherent ∧ running.busy = true ∧ step running = .next (nextOf (step running)) := ⟨by decide, rfl, rfl⟩

theorem witness_ResetIsWellFormed : ∀ p ∈ [((8 : RegIdx), 0), (10, 0)], namesReg p.1 = true ∧ p.2 = 0 := by decide

/-- Busy states for each way on: a dropped write leaves the command running, and each of the three events ends it. -/
def dropping : State := { running with hostOps := [hostWr 0x010 0], schedule := [.host] }

def resetting : State := { running with hostOps := [hostWr 0x008 1], schedule := [.host] }

theorem witness_OnlyResetAbandonsACommand_kept :
    dropping.busy = true ∧ step dropping = .next (nextOf (step dropping)) ∧ (nextOf (step dropping)).busy = true :=
  ⟨rfl, rfl, rfl⟩

theorem witness_OnlyResetAbandonsACommand :
    running.busy = true ∧ step running = .next (nextOf (step running)) ∧ (nextOf (step running)).busy = false :=
  ⟨rfl, rfl, rfl⟩

theorem witness_OnlyResetAbandonsACommand_reset :
    resetting.busy = true ∧ step resetting = .next (nextOf (step resetting)) ∧ (nextOf (step resetting)).busy = false :=
  ⟨rfl, rfl, rfl⟩

/-- OVR set by a dropped write of the last word of KD, and cleared by OVRCLR. -/
def overrunning : State := { running with hostOps := [hostWr 0x1804 0], schedule := [.host] }

def clearing : State := { running with ovr := true, hostOps := [hostWr 0x008 2], schedule := [.host] }

theorem witness_OverrunChangesOnlyAsListed :
    step overrunning = .next (nextOf (step overrunning)) ∧ overrunning.ovr = false ∧
      (nextOf (step overrunning)).ovr = true ∧ step clearing = .next (nextOf (step clearing)) ∧ clearing.ovr = true ∧
      (nextOf (step clearing)).ovr = false := ⟨rfl, rfl, rfl, rfl, rfl, rfl⟩

theorem witness_CompletionRacesAHostWrite : running.busy = true ∧ (1#32).getLsbD 0 = true := by decide

theorem witness_WaitLoopEnds : (running.withHost [.wait]).hostOps = .wait :: [] := by decide

/-- A driver that encrypts 65, with completions late and early and a reset. -/
def driven (irq : Bool) : State :=
  { keyed.withHost (driver irq 2 [(0, 65)] (.rsaenc 1 0)) with schedule := [.host, .engine, .host, .host, .resetPin] }

theorem witness_DriverProtocolMeetsNoHazard :
    ∀ irq, (driven irq).Wf ∧ (Instr.rsaenc 1 0).wf = true ∧ (∀ p ∈ [((0 : RegIdx), 65)], namesReg p.1 = true) ∧
      (driven irq).hostOps = driver irq (driven irq).nwords [(0, 65)] (.rsaenc 1 0) ∧ (driven irq).ovr = false := by
  decide

/-- A running command with the interrupt enabled, with the given pending bit. -/
def awaiting (pending : Bool) : State :=
  { running with doneEn := true, donePend := pending, hostOps := [.waitIrq], schedule := [.host, .engine] }

/-- The clauses of the wait: irq 0, irq 1 and BUSY, irq 1 and idle, and the wait that ends. -/
theorem witness_DriverWaitsForIrqAndChecksStatus :
    (awaiting false).hostOps = .waitIrq :: [] ∧ (awaiting false).irq = false ∧ (awaiting true).irq = true ∧
      (awaiting true).busy = true ∧ { awaiting true with busy := false }.irq = true ∧
      { awaiting true with busy := false }.busy = false ∧ (awaiting false).doneEn = true ∧
      (∀ t ∈ (awaiting false).schedule, t ≠ .resetPin) ∧
      (keyed.withHost [.check 1]).hostOps = .check 1 :: [] := by decide

end Sys2Proof.Tests
end

section
/-! Scope statements: an issued command runs, WRB writes a whole register, every step keeps the block well formed. -/

/-! ### A command word decodes to its command -/

namespace Sys2Proof

theorem fixedBits_encode (i : Instr) : Laws.FixedBits.Statement i := by
  cases i with
  | nop => exact Laws.FixedBits.nop
  | mov => exact Laws.FixedBits.mov ..
  | gcd => exact Laws.FixedBits.gcd ..
  | xgcd => exact Laws.FixedBits.xgcd ..
  | inv => exact Laws.FixedBits.inv ..
  | modred => exact Laws.FixedBits.modred ..
  | modmul => exact Laws.FixedBits.modmul ..
  | montmul => exact Laws.FixedBits.montmul ..
  | modexp => exact Laws.FixedBits.modexp ..
  | rsaenc => exact Laws.FixedBits.rsaenc ..
  | rsadec => exact Laws.FixedBits.rsadec ..

@[simp] theorem opField_encode (i : Instr) : opField (encode i) = i.op.code := (fixedBits_encode i).1

@[simp] theorem encode_and_mask (i : Instr) : encode i &&& i.op.format.mask = i.op.code.setWidth 32 :=
  (fixedBits_encode i).2

/-- The fields of a command's word give the command back (30_encoding.md R69, R74). -/
@[simp] theorem build_encode (i : Instr) : i.op.build (encode i) = i := by
  cases i <;> simp [Instr.op, Op.build, encode]

/-- The used fields of a command's word all name registers exactly when the command is well formed
(30_encoding.md R70). -/
theorem fields_encode_all_namesReg (i : Instr) :
    i.op.format.fields.all (fun f => namesReg (f.of (encode i))) = true ↔ i.wf = true := by
  cases i <;>
    simp only [Instr.op, Op.format, Format.fields, encode, of_encodeFields, Instr.wf, Instr.dests, Instr.sources,
      List.all_cons, List.all_nil, Bool.and_eq_true] <;>
    tauto

/-- A well-formed command's word decodes to the command (30_encoding.md R72, R75). -/
theorem decode_encode {i : Instr} (h : i.wf = true) : decode (encode i) = .ok i := by
  simp [decode, (fields_encode_all_namesReg i).2 h]

end Sys2Proof

namespace Sys2Proof.Machine

/-! ### The turns an empty schedule gives -/

theorem State.afterStep_of_idle {s : State} (hb : s.busy = false) (hs : s.schedule = []) :
    s.afterStep = s.hostTurn := by
  simp [State.afterStep, hs, hb, State.afterTurn]

theorem step_of_busy {s : State} (hb : s.busy = true) (hs : s.schedule = []) : step s = engineTurn s := by
  simp [step, hs, hb, takeTurn]

theorem engineTurn_of_decode {s : State} {i : Instr} (hb : s.busy = true) (hd : decode s.latch.word = .ok i) :
    engineTurn s = exec i s := by
  simp [engineTurn, hb, hd]

/-- The Host's turn on a line `WR off, v` of the window (00_scope.md R18). -/
theorem State.hostTurn_hostWr {s : State} {off : Nat} {v : Word} {rest : List HostOp} {l : Location}
    (hops : s.hostOps = hostWr off v :: rest) (hl : locate off = some l) :
    s.hostTurn = ({ s with hostOps := rest } : State).writeLoc l v := by
  simp [State.hostTurn, hops, hostWr, State.hostWrite, locateAccess, hl]

/-- The Host's turn on `ISSUE command` while idle accepts the command's word (00_scope.md R18, 10_state.md R37). -/
theorem State.hostTurn_issue {s : State} {i : Instr} {rest : List HostOp} (hb : s.busy = false)
    (hops : s.hostOps = issue i :: rest) :
    s.hostTurn = ({ s with hostOps := rest } : State).accept (encode i) := by
  have hcmd : locate 0x010 = some .cmd := rfl
  rw [State.hostTurn_hostWr hops hcmd]
  simp [State.writeLoc, State.writeCmd, hb]

/-- Settles O10: the Host's turn accepts the word, and the Engine's turn runs the command it decodes to. -/
theorem issuedCommandRuns : Obligations.IssuedCommandRuns := by
  unfold Obligations.IssuedCommandRuns
  intro s i rest hwf hb hs hops
  have haccept : step s = .next (({ s with hostOps := rest } : State).accept (encode i)) := by
    rw [step_eq, State.afterStep_of_idle hb hs, State.hostTurn_issue hb hops]
  refine ⟨_, haccept, rfl, ?_⟩
  rw [step_of_busy rfl (by simpa using hs)]
  exact engineTurn_of_decode rfl (by simpa using decode_encode hwf)

/-! ### Writing a big register word by word -/

/-- A register's value is below any positive bound on the register file. -/
theorem State.reg_lt {s : State} {m : Nat} (hm : 0 < m) (hx : ∀ v ∈ s.x.toList, v < m) (r : RegIdx) : s.reg r < m := by
  rcases s.reg_mem r with h | h
  · exact hx _ h
  · rwa [h]

/-- The value whose words below n are those of v and whose other words are those of `old`. -/
def mergeLow (old v n : Nat) : Nat := old / 2 ^ (32 * n) * 2 ^ (32 * n) + v % 2 ^ (32 * n)

@[simp] theorem mergeLow_zero (old v : Nat) : mergeLow old v 0 = old := by simp [mergeLow, Nat.mod_one]

/-- With all words taken from v, nothing is left of the old value. -/
theorem mergeLow_eq_right {old v n : Nat} (ho : old < 2 ^ (32 * n)) (hv : v < 2 ^ (32 * n)) :
    mergeLow old v n = v := by
  simp [mergeLow, Nat.div_eq_of_lt ho, Nat.mod_eq_of_lt hv]

theorem mergeLow_mod (old v n : Nat) : mergeLow old v n % 2 ^ (32 * n) = v % 2 ^ (32 * n) := by
  rw [mergeLow, Nat.mul_add_mod_self_right, Nat.mod_mod]

theorem mergeLow_div (old v n : Nat) : mergeLow old v n / 2 ^ (32 * n) = old / 2 ^ (32 * n) := by
  rw [mergeLow, Nat.add_comm, Nat.add_mul_div_right _ _ (Nat.two_pow_pos _),
    Nat.div_eq_of_lt (Nat.mod_lt _ (Nat.two_pow_pos _)), Nat.zero_add]

/-- Writing word n of v takes one more word from v (20_memory.md R48). -/
theorem setWordAt_mergeLow (old v n : Nat) :
    setWordAt (mergeLow old v n) n (wordAt v n) = mergeLow old v (n + 1) := by
  have hp : 2 ^ (32 * (n + 1)) = 2 ^ (32 * n) * 2 ^ 32 := by rw [← pow_add, Nat.mul_succ]
  have hhigh : mergeLow old v n / 2 ^ (32 * (n + 1)) = old / 2 ^ (32 * (n + 1)) := by
    rw [hp, ← Nat.div_div_eq_div_mul, mergeLow_div, Nat.div_div_eq_div_mul]
  have hlow : v % 2 ^ (32 * (n + 1)) = (wordAt v n).toNat * 2 ^ (32 * n) + v % 2 ^ (32 * n) := by
    rw [hp, Nat.mod_mul, wordAt, BitVec.toNat_ofNat, Nat.mul_comm (v / _ % _), Nat.add_comm]
  rw [setWordAt, hhigh, mergeLow_mod, Nat.add_assoc, ← hlow, mergeLow]

/-- Writing a register's own value back changes nothing. -/
theorem State.setReg_reg_self (s : State) {r : RegIdx} (hr : namesReg r = true) : s.setReg r (s.reg r) = s := by
  have hx : (s.setReg r (s.reg r)).x = s.x := regs_ext fun q _ => by
    rw [State.setReg_reg _ _ _ _ hr]
    split
    · rename_i e; rw [e]
    · rfl
  calc s.setReg r (s.reg r) = { s with x := (s.setReg r (s.reg r)).x } := rfl
    _ = s := by rw [hx]

/-- Of two writes to one register the later stays. -/
theorem State.setReg_setReg (s : State) {r : RegIdx} (hr : namesReg r = true) (v w : Nat) :
    (s.setReg r v).setReg r w = s.setReg r w := by
  have hx : ((s.setReg r v).setReg r w).x = (s.setReg r w).x := regs_ext fun q _ => by
    simp only [State.setReg_reg _ _ _ _ hr]
    split <;> rfl
  calc (s.setReg r v).setReg r w = { s with x := ((s.setReg r v).setReg r w).x } := rfl
    _ = s.setReg r w := by rw [hx]; rfl

/-- The Host's turn on a write of word i < K of a big register while idle (20_memory.md R48). -/
theorem State.hostTurn_bigOffset {s : State} {r : RegIdx} {i : Nat} {w : Word} {rest : List HostOp}
    (hb : s.busy = false) (hr : namesReg r = true) (hi : i < s.nwords) (hk : s.nwords ≤ 128)
    (hops : s.hostOps = hostWr (bigOffset r i) w :: rest) :
    s.hostTurn = ({ s with hostOps := rest } : State).setReg r (setWordAt (s.reg r) i w) := by
  rw [State.hostTurn_hostWr hops (locate_bigOffset hr (hi.trans_le hk))]
  simp only [State.writeLoc, State.writeBigWord, hb, if_neg (Nat.not_le.2 hi)]
  rfl

theorem drop_wrb {k n : Nat} (hn : n < k) (r : RegIdx) (v : Nat) :
    (wrb k r v).drop n = hostWr (bigOffset r n) (wordAt v n) :: (wrb k r v).drop (n + 1) := by
  rw [List.drop_eq_getElem_cons (by simpa [wrb] using hn)]
  simp [wrb]

/-- The state after the first n writes of WRB: the words below n are in the register, and the other writes are still to
be made, before `rest` (00_scope.md R18). -/
def State.duringWrb (s : State) (r : RegIdx) (v : Nat) (rest : List HostOp) (n : Nat) : State :=
  ({ s with hostOps := (wrb s.nwords r v).drop n ++ rest } : State).setReg r (mergeLow (s.reg r) v n)

theorem State.duringWrb_zero {s : State} {r : RegIdx} {v : Nat} {rest : List HostOp} (hr : namesReg r = true)
    (hops : s.hostOps = wrb s.nwords r v ++ rest) : s.duringWrb r v rest 0 = s := by
  rw [State.duringWrb, mergeLow_zero, List.drop_zero, ← hops]
  exact s.setReg_reg_self hr

/-- Each step of WRB writes its next word (00_scope.md R18, 20_memory.md R48). -/
theorem State.afterStep_duringWrb {s : State} {r : RegIdx} {v n : Nat} {rest : List HostOp} (hk : s.nwords ≤ 128)
    (hb : s.busy = false) (hs : s.schedule = []) (hr : namesReg r = true) (hn : n < s.nwords) :
    (s.duringWrb r v rest n).afterStep = s.duringWrb r v rest (n + 1) := by
  have hreg : (s.duringWrb r v rest n).reg r = mergeLow (s.reg r) v n := by simp [State.duringWrb, hr]
  have hops : (s.duringWrb r v rest n).hostOps =
      hostWr (bigOffset r n) (wordAt v n) :: ((wrb s.nwords r v).drop (n + 1) ++ rest) := by
    simp [State.duringWrb, drop_wrb hn]
  rw [State.afterStep_of_idle (s := s.duringWrb r v rest n) hb hs,
    State.hostTurn_bigOffset (s := s.duringWrb r v rest n) hb hr hn hk hops, hreg, setWordAt_mergeLow]
  exact State.setReg_setReg { s with hostOps := (wrb s.nwords r v).drop (n + 1) ++ rest } hr _ _

theorem stepN_wrb {s : State} {r : RegIdx} {v : Nat} {rest : List HostOp} (hk : s.nwords ≤ 128)
    (hb : s.busy = false) (hs : s.schedule = []) (hr : namesReg r = true)
    (hops : s.hostOps = wrb s.nwords r v ++ rest) : ∀ n ≤ s.nwords, stepN n s = s.duringWrb r v rest n := by
  intro n
  induction n with
  | zero => intro _; exact (State.duringWrb_zero hr hops).symm
  | succ n ih =>
    intro hn
    rw [stepN_add n 1, ih (by omega), stepN_succ, stepN_zero]
    exact State.afterStep_duringWrb hk hb hs hr hn

/-- Settles O38, by induction on the words written so far. -/
theorem wrbWritesTheWholeRegister : Obligations.WrbWritesTheWholeRegister := by
  unfold Obligations.WrbWritesTheWholeRegister
  intro s r v rest hwf hb hs hr hv hops
  obtain ⟨⟨_, hk⟩, hx, _, _⟩ := hwf
  have hold : s.reg r < 2 ^ (32 * s.nwords) := State.reg_lt (Nat.two_pow_pos _) hx r
  have hall : stepN s.nwords s = ({ s with hostOps := rest } : State).setReg r v := by
    rw [stepN_wrb hk hb hs hr hops _ le_rfl, State.duringWrb, mergeLow_eq_right hold hv,
      List.drop_of_length_le (by simp [wrb]), List.nil_append]
  refine ⟨_, hall, rfl, fun q _ => ?_⟩
  rw [State.setReg_reg _ _ _ _ hr]
  rfl

/-! ### The invariant of the block -/

theorem forall_mem_writeRegs_lt {x : Vector Nat 11} {ws : List (RegIdx × Nat)} {m : Nat}
    (hx : ∀ v ∈ x.toList, v < m) (hws : ∀ v ∈ ws.map Prod.snd, v < m) : ∀ v ∈ (writeRegs x ws).toList, v < m :=
  fun v hv => (mem_writeRegs ws x v hv).elim (hx v) (hws v)

/-- The values of a latch are those of its fields and of the keys. -/
theorem Latch.forall_values_iff (l : Latch) (p : Nat → Prop) :
    (∀ v ∈ l.values, p v) ↔ (∀ f, p (l.val f)) ∧ p l.kn ∧ p l.ke ∧ p l.kd := by
  have hfields : (∀ f, p (l.val f)) ↔ p l.rd ∧ p l.rs1 ∧ p l.rs2 ∧ p l.rs3x ∧ p l.ry :=
    ⟨fun h => ⟨h .rd, h .rs1, h .rs2, h .rs3x, h .ry⟩, fun ⟨h1, h2, h3, h4, h5⟩ f => by cases f <;> assumption⟩
  rw [hfields]
  simp [Latch.values, and_assoc]

/-- Acceptance latches values of registers and keeps old latched values, so it keeps a bound on both
(10_state.md R37). -/
theorem State.latchOf_values_lt {s : State} {m : Nat} (hm : 0 < m) (hx : ∀ v ∈ s.x.toList, v < m)
    (hl : ∀ v ∈ s.latch.values, v < m) (w : Word) : ∀ v ∈ (s.latchOf w).values, v < m := by
  rw [Latch.forall_values_iff _ (· < m)] at hl ⊢
  obtain ⟨hfields, _⟩ := hl
  have hreg := State.reg_lt hm hx
  refine ⟨fun f => ?_, by simp [hreg]⟩
  rw [State.latchOf_val]
  split
  · exact hreg _
  · exact hfields f

/-- Every result of a command keeps the register file below 2^W (40_control.md R83). -/
theorem apply_execResult_lt {i : Instr} {l : Latch} {w : Nat} {x : Vector Nat 11} (hx : ∀ v ∈ x.toList, v < 2 ^ w)
    (hl : ∀ v ∈ l.values, v < 2 ^ w) : ∀ v ∈ ((execResult i l w).apply x).toList, v < 2 ^ w := by
  cases h : execResult i l w with
  | error c => exact hx
  | commit ws => exact forall_mem_writeRegs_lt hx (execResult_lt h hl)

/-- Completion leaves BUSY = 0, so it keeps the block well formed when it keeps the register values in range. -/
theorem State.Wf.complete {s : State} (h : s.Wf) {r : Result} (hr : ∀ v ∈ (r.apply s.x).toList, v < 2 ^ s.width) :
    (s.complete r).Wf := by
  obtain ⟨hk, _, hl, _⟩ := h
  exact ⟨hk, hr, hl, fun hb => nomatch hb⟩

/-- Well-formedness is closed under everything a turn can do. -/
theorem closed_wf : Closed State.Wf where
  run _ _ _ _ _ _ h _ := h
  flags _ _ _ _ h := h
  write s r i v h hb _ hi := by
    obtain ⟨hk, hx, hl, _⟩ := h
    have hreg : s.reg r < 2 ^ s.width := State.reg_lt (Nat.two_pow_pos _) hx r
    have hw : ∀ u ∈ [(r, setWordAt (s.reg r) i v)].map Prod.snd, u < 2 ^ s.width := by
      simpa [State.width] using setWordAt_lt v hreg hi
    exact ⟨hk, forall_mem_writeRegs_lt hx hw, hl, by simp [hb]⟩
  accept s v h _ := by
    obtain ⟨hk, hx, hl, _⟩ := h
    exact ⟨hk, hx, State.latchOf_values_lt (Nat.two_pow_pos _) hx hl v, by simp⟩
  complete s i h _ _ := by
    obtain ⟨_, hx, hl, _⟩ := id h
    exact h.complete (apply_execResult_lt hx hl)
  illegal s h _ := by
    obtain ⟨_, hx, _, _⟩ := id h
    exact h.complete hx
  reset s h := by
    obtain ⟨hk, _⟩ := h
    exact ⟨hk, by simp, by simp [Latch.values, Latch.empty], by simp⟩

/-- Settles O52: every kind of change a turn makes keeps the invariant. -/
theorem stepKeepsWellFormed : Obligations.StepKeepsWellFormed := by
  unfold Obligations.StepKeepsWellFormed
  intro s t hs ht
  exact closed_wf.step hs ht

end Sys2Proof.Machine
end

section
/-! The state's statements: the latch and the completion of commands, the control registers, OVR, and reset. -/

namespace Sys2Proof.Machine

/-! ### The latch while a command runs -/

/-- With no command in flight the latch is coherent. -/
theorem State.latchCoherent_of_idle {s : State} (hb : s.busy = false) : s.LatchCoherent :=
  fun h => absurd h (by simp [hb])

/-- Acceptance latches the registers' values and writes none of them (10_state.md R37). -/
theorem State.latchCoherent_accept (s : State) (v : Word) : (s.accept v).LatchCoherent := by
  intro _
  have hfields : ∀ f ∈ usedFields v, namesReg (f.of v) = true → (s.latchOf v).val f = s.reg (f.of v) :=
    fun f hf hn => by rw [State.latchOf_val, if_pos ⟨hf, hn⟩]
  simpa using hfields

/-- Coherence is closed under everything a turn can do: registers change only while BUSY = 0 or as BUSY falls. -/
theorem closed_latchCoherent : Closed State.LatchCoherent where
  run _ _ _ _ _ _ h _ := h
  flags _ _ _ _ h := h
  write _ _ _ _ _ hb _ _ := State.latchCoherent_of_idle hb
  accept s v _ _ := s.latchCoherent_accept v
  complete _ _ _ _ _ := State.latchCoherent_of_idle rfl
  illegal _ _ _ := State.latchCoherent_of_idle rfl
  reset _ _ := State.latchCoherent_of_idle rfl

/-- Settles O53: every kind of change a turn makes keeps the latch coherent. -/
theorem stepKeepsTheLatchCoherent : Obligations.StepKeepsTheLatchCoherent := by
  unfold Obligations.StepKeepsTheLatchCoherent
  intro s t hs ht
  exact closed_latchCoherent.step hs ht

/-! ### The Host's accesses of located words -/

theorem State.hostWrite_of_locate {off : Nat} {l : Location} (hl : locate off = some l) (s : State) (v : Word) :
    s.hostWrite 32 off v = s.writeLoc l v := by
  simp [State.hostWrite, locateAccess, hl]

theorem State.hostRead_of_locate {off : Nat} {l : Location} (hl : locate off = some l) (s : State) :
    s.hostRead 32 off = (s.readLoc l).2.observe (.value off (s.readLoc l).1) := by
  simp [State.hostRead, locateAccess, hl]

/-- Settles O6: the write is acceptance, and acceptance latches the used fields that name registers. -/
theorem cmdWriteLatchesAndStarts : Obligations.CmdWriteLatchesAndStarts := by
  unfold Obligations.CmdWriteLatchesAndStarts
  intro s v hb
  have haccept : s.hostWrite 32 0x010 v = s.accept v := by
    rw [State.hostWrite_of_locate rfl]
    simp [State.writeLoc, State.writeCmd, hb]
  refine ⟨_, haccept, rfl, by simp, by simp, by simp, by simp, fun f hf hn => ?_⟩
  rw [State.accept_latch, State.latchOf_val, if_pos ⟨hf, (namesReg_iff _).2 (Nat.lt_succ_of_le hn)⟩]

/-! ### Completion -/

/-- A result that reports an error writes no big register (60_exceptions.md R146). -/
theorem Result.apply_of_code_ne_ok {r : Result} (h : r.code ≠ .ok) (x : Vector Nat 11) : r.apply x = x := by
  cases r with
  | error c => rfl
  | commit ws => exact absurd rfl h

/-- While BUSY = 1 the Engine's turn completes with some result (10_state.md R38). -/
theorem exists_engineTurn_eq_complete {s : State} (hb : s.busy = true) :
    ∃ r, engineTurn s = .next (s.complete r) := by
  cases hd : decode s.latch.word with
  | ok i => exact ⟨_, (engineTurn_of_decode hb hd).trans (exec_eq i s)⟩
  | error e => exact ⟨.error .illegal, by simp [engineTurn, hb, hd]⟩

/-- Settles O7: the Engine's turn is a completion, whatever the latched word. -/
theorem completionRecordsOutcome : Obligations.CompletionRecordsOutcome := by
  unfold Obligations.CompletionRecordsOutcome
  intro s hb
  obtain ⟨r, hr⟩ := exists_engineTurn_eq_complete hb
  exact ⟨_, hr, rfl, State.err_eq_true _, fun hc => Result.apply_of_code_ne_ok hc s.x⟩

/-- A command's result writes no register but its destinations (40_control.md R83). -/
theorem reg_complete_execResult_of_not_mem_dests {i : Instr} {r : RegIdx} (hr : r ∉ i.dests) (s : State) (l : Latch)
    (w : Nat) : (s.complete (execResult i l w)).reg r = s.reg r := by
  cases he : execResult i l w with
  | error c => rfl
  | commit ws => exact reg_writeRegs_of_not_mem ws s.x r (by rwa [execResult_dests he])

/-- Settles O34: a command completes with a result, whose writes go to its destinations. -/
theorem commandsChangeOnlyTheirDestinations : Obligations.CommandsChangeOnlyTheirDestinations := by
  unfold Obligations.CommandsChangeOnlyTheirDestinations
  intro i s t ht
  rw [exec_eq] at ht
  cases ht
  exact ⟨rfl, fun r _ hr => reg_complete_execResult_of_not_mem_dests hr s _ _,
    fun hc => Result.apply_of_code_ne_ok hc s.x⟩

/-- A register that the writes name holds a written value, whatever the register file held before. -/
theorem reg_writeRegs_of_mem (ws : List (RegIdx × Nat)) {r : RegIdx} (hn : namesReg r = true) :
    ∀ x y : Vector Nat 11, r ∈ ws.map Prod.fst →
      (writeRegs x ws)[r.toNat]?.getD 0 = (writeRegs y ws)[r.toNat]?.getD 0 := by
  induction ws with
  | nil => intro x y hr; exact nomatch hr
  | cons w ws ih =>
    intro x y hr
    rw [writeRegs_cons, writeRegs_cons]
    by_cases hlater : r ∈ ws.map Prod.fst
    · exact ih _ _ hlater
    · have e : r = w.1 := (List.mem_cons.1 hr).resolve_right hlater
      subst e
      simp only [reg_writeRegs_of_not_mem ws _ _ hlater, reg_write_one _ _ _ _ hn, if_true]

/-- No command's result is an error with the code OK (60_exceptions.md R141). -/
theorem execResult_ne_error_ok (i : Instr) (l : Latch) (w : Nat) : execResult i l w ≠ .error .ok := by
  intro h
  unfold execResult at h
  split at h
  · cases i <;> simp only [rsaResult, Result.withModulus] at h <;> (repeat' split at h) <;> cases h
  · cases h

/-- The values that a command leaves in its destinations do not depend on the state it completes in. -/
theorem reg_complete_execResult_of_mem_dests {i : Instr} {l : Latch} {w : Nat} {r : RegIdx}
    (hok : (execResult i l w).code = .ok) (hr : r ∈ i.dests) (hn : namesReg r = true) (s s' : State) :
    (s.complete (execResult i l w)).reg r = (s'.complete (execResult i l w)).reg r := by
  cases he : execResult i l w with
  | error c =>
    rw [he] at hok
    exact absurd (he.trans (congrArg Result.error hok)) (execResult_ne_error_ok i l w)
  | commit ws => exact reg_writeRegs_of_mem ws hn s.x s'.x (by rwa [execResult_dests he])

/-- Settles O35: the result is a function of LATCH and the width, and it alone gives the code and the destinations. -/
theorem outcomesDependOnTheLatchAlone : Obligations.OutcomesDependOnTheLatchAlone := by
  unfold Obligations.OutcomesDependOnTheLatchAlone
  intro i s s' t t' hl hk ht ht'
  have hw : s.width = s'.width := congrArg (32 * ·) hk
  rw [exec_eq] at ht ht'
  cases ht
  cases ht'
  rw [hl, hw]
  exact ⟨rfl, fun hok r hr hn => reg_complete_execResult_of_mem_dests hok hr hn s s'⟩

/-! ### The Engine's turn in a step -/

theorem step_of_schedule {s : State} {t : Turn} {rest : List Turn} (hs : s.schedule = t :: rest) :
    step s = takeTurn t { s with schedule := rest } := by
  simp [step, hs]

/-- Settles O8: a busy block gives an empty schedule's turn to the Engine, and the Engine's turn is the command. -/
theorem stepRunsTheDecodedCommand : Obligations.StepRunsTheDecodedCommand := by
  unfold Obligations.StepRunsTheDecodedCommand
  intro s i hb hd
  constructor
  · intro hs
    rw [step_of_busy hb hs]
    exact engineTurn_of_decode hb hd
  · intro rest hs
    rw [step_of_schedule hs]
    exact engineTurn_of_decode (s := { s with schedule := rest }) hb hd

/-! ### What every step keeps -/

theorem closed_nwords (k : Nat) : Closed (fun s => s.nwords = k) where
  run _ _ _ _ _ _ h _ := h
  flags _ _ _ _ h := h
  write _ _ _ _ h _ _ _ := h
  accept _ _ h _ := h
  complete _ _ h _ _ := h
  illegal _ h _ := h
  reset _ h := h

theorem closed_faultRecord : Closed (fun s => s.faultRecord = some .accessFault) where
  run _ _ _ _ _ _ h hfr := hfr.elim (·.trans h) id
  flags _ _ _ _ h := h
  write _ _ _ _ h _ _ _ := h
  accept _ _ h _ := h
  complete _ _ h _ _ := h
  illegal _ h _ := h
  reset _ h := h

/-- Settles O51: no kind of change a turn makes touches PARAM, and a turn only ever sets the fault record. -/
theorem faultRecordAndParamAreKept : Obligations.FaultRecordAndParamAreKept := by
  unfold Obligations.FaultRecordAndParamAreKept
  intro s t ht
  exact ⟨(closed_nwords s.nwords).step rfl ht, fun hf => closed_faultRecord.step hf ht⟩

/-! ### OVR -/

@[simp] theorem State.afterEngine_ovr (s : State) : s.afterEngine.ovr = s.ovr := by
  unfold State.afterEngine
  split
  · split <;> rfl
  · rfl

/-- Everything a located write does to OVR: it keeps it, or sets it as a write of CMD or of word i < K of a big register
while BUSY, or clears it as a write of CTRL with the soft reset or with OVRCLR (10_state.md R29, R31). -/
theorem State.writeLoc_ovr_cases (s : State) (l : Location) (v : Word) :
    (s.writeLoc l v).ovr = s.ovr ∨
    ((s.writeLoc l v).ovr = true ∧ s.busy = true ∧ (l = .cmd ∨ ∃ r i, l = .bigWord r i ∧ i < s.nwords)) ∨
    ((s.writeLoc l v).ovr = false ∧ l = .ctrl ∧
      ((v.getLsbD 0 = true ∧ s.writeLoc l v = s.blockReset) ∨ v.getLsbD 1 = true)) := by
  cases l with
  | id | param | status | reserved | irqEn => exact .inl rfl
  | irqPend =>
    simp only [State.writeLoc]
    split <;> exact .inl rfl
  | ctrl =>
    rw [State.writeLoc, State.writeCtrl]
    split
    · exact .inr (.inr ⟨rfl, rfl, .inl ⟨‹_›, rfl⟩⟩)
    · split
      · exact .inr (.inr ⟨rfl, rfl, .inr ‹_›⟩)
      · exact .inl rfl
  | cmd =>
    rw [State.writeLoc, State.writeCmd]
    split
    · exact .inr (.inl ⟨rfl, ‹_›, .inl rfl⟩)
    · exact .inl rfl
  | bigWord r i =>
    rw [State.writeLoc, State.writeBigWord]
    split
    · exact .inl rfl
    · split
      · exact .inr (.inl ⟨rfl, ‹_›, .inr ⟨r, i, rfl, by omega⟩⟩)
      · exact .inl rfl

/-- Resetting a block that has just been reset changes nothing. -/
theorem State.blockIsReset_blockReset (s : State) : s.blockReset.BlockIsReset := rfl

/-- Everything the Host's turn does to OVR, by the line it takes (10_state.md R29, R31). -/
theorem State.hostTurn_ovr_cases (s : State) :
    s.hostTurn.ovr = s.ovr ∨
    (s.hostTurn.ovr = true ∧ s.busy = true ∧ ∃ off v rest, s.hostOps = .write 32 off v :: rest ∧
      (off = 0x010 ∨ ∃ r i, namesReg r = true ∧ i < s.nwords ∧ i < 128 ∧ off = bigOffset r i)) ∨
    (s.hostTurn.ovr = false ∧ ∃ v rest, s.hostOps = .write 32 0x008 v :: rest ∧
      ((v.getLsbD 0 = true ∧ s.hostTurn.BlockIsReset) ∨ v.getLsbD 1 = true)) := by
  obtain ⟨fr, ops, obs, n, _, e⟩ | ⟨off, l, v, rest, hops, hl, e⟩ := hostTurn_cases s
  · exact .inl (by rw [e])
  rw [e]
  obtain hkeep | ⟨hset, hb, hloc⟩ | ⟨hclear, rfl, hbits⟩ :=
    ({ s with hostOps := rest } : State).writeLoc_ovr_cases l v
  · exact .inl hkeep
  · refine .inr (.inl ⟨hset, hb, off, v, rest, hops, ?_⟩)
    obtain rfl | ⟨r, i, rfl, hi⟩ := hloc
    · exact .inl (locate_cmd hl)
    · obtain ⟨hr, hi128, hoff⟩ := locate_bigWord hl
      exact .inr ⟨r, i, hr, hi, hi128, hoff⟩
  · obtain rfl := locate_ctrl hl
    refine .inr (.inr ⟨hclear, v, rest, hops, hbits.imp_left fun ⟨hv, hreset⟩ => ⟨hv, ?_⟩⟩)
    rw [hreset]
    exact State.blockIsReset_blockReset _

/-- Settles O56: the Engine's turn keeps OVR and the reset input clears it; the Host's turn changes it by writes. -/
theorem overrunChangesOnlyAsListed : Obligations.OverrunChangesOnlyAsListed := by
  unfold Obligations.OverrunChangesOnlyAsListed
  intro s t ht
  rw [step_eq, State.afterStep_eq] at ht
  cases ht
  cases s.nextTurn with
  | host =>
    obtain hkeep | ⟨hset, hline⟩ | ⟨hclear, hline⟩ :=
      ({ s with schedule := s.schedule.tail } : State).hostTurn_ovr_cases
    · exact ⟨fun h0 h1 => absurd (h1.symm.trans (hkeep.trans h0)) nofun,
        fun h1 h0 => absurd (h0.symm.trans (hkeep.trans h1)) nofun⟩
    · exact ⟨fun _ _ => ⟨rfl, hline⟩, fun _ h0 => absurd (hset.symm.trans h0) nofun⟩
    · exact ⟨fun _ h1 => absurd (hclear.symm.trans h1) nofun, fun _ _ => .inr ⟨rfl, hline⟩⟩
  | engine => simp +contextual [State.afterTurn]
  | resetPin => exact ⟨fun _ h1 => absurd h1 nofun, fun _ _ => .inl ⟨rfl, State.blockIsReset_blockReset _⟩⟩

/-! ### The control registers -/

theorem bitWord_eq_ite (b : Bool) : bitWord b = if b then 1 else 0 := by
  cases b <;> rfl

/-- NWORDS fits its 16 bits, so PARAM is K (10_state.md R28). -/
theorem State.paramWord_eq {s : State} (hk : s.nwords < 2 ^ 16) : s.paramWord = BitVec.ofNat 32 s.nwords := by
  apply BitVec.eq_of_toNat_eq
  simp only [State.paramWord, BitVec.toNat_setWidth, BitVec.toNat_ofNat]
  omega

/-- A Host read of a location without a draw only observes its word (20_memory.md R53). -/
theorem State.hostRead_eq_observe {s : State} {off : Nat} {l : Location} {w : Word} (hl : locate off = some l)
    (hr : s.readLoc l = (w, s)) : s.hostRead 32 off = s.observe (.value off w) := by
  rw [State.hostRead_of_locate hl, hr]

/-- Settles O44: each offset locates its register, whose read is its field's word. -/
theorem controlRegistersReadTheirFields : Obligations.ControlRegistersReadTheirFields := by
  unfold Obligations.ControlRegistersReadTheirFields
  intro s
  simp only [← bitWord_eq_ite]
  refine ⟨?id, fun hk => ?param, ?ctrl, ?cmd, ?status, ?irqEn, ?irqPend⟩
  case id => exact State.hostRead_eq_observe (l := .id) rfl rfl
  case param =>
    rw [← State.paramWord_eq hk]
    exact State.hostRead_eq_observe (l := .param) rfl rfl
  case ctrl => exact State.hostRead_eq_observe (l := .ctrl) rfl rfl
  case cmd => exact State.hostRead_eq_observe (l := .cmd) rfl rfl
  case status => exact State.hostRead_eq_observe (l := .status) rfl rfl
  case irqEn => exact State.hostRead_eq_observe (l := .irqEn) rfl rfl
  case irqPend => exact State.hostRead_eq_observe (l := .irqPend) rfl rfl

/-- The one-bit fields of the STATUS word: BUSY, DONE, ERR, OVR (10_state.md R31). -/
theorem State.getLsbD_statusWord_flags (s : State) :
    s.statusWord.getLsbD 0 = s.busy ∧ s.statusWord.getLsbD 1 = s.done ∧ s.statusWord.getLsbD 2 = s.err ∧
      s.statusWord.getLsbD 3 = s.ovr := by
  simp only [State.statusWord, BitVec.getLsbD_append, BitVec.getLsbD_ofBool]
  simp

/-- From bit 4 on the STATUS word holds the bits of ERRCODE (10_state.md R31). -/
theorem State.getLsbD_statusWord_add_four (s : State) (n : Nat) :
    s.statusWord.getLsbD (4 + n) = s.errcode.code.getLsbD n := by
  have hbound : s.errcode.code.getLsbD n = true → n < 4 := BitVec.lt_of_getLsbD
  simp only [State.statusWord, BitVec.getLsbD_append]
  simpa [Nat.add_comm 4 n] using hbound

theorem State.extractLsb'_statusWord_errcode (s : State) : s.statusWord.extractLsb' 4 4 = s.errcode.code := by
  ext i hi
  rw [BitVec.getElem_extractLsb', State.getLsbD_statusWord_add_four, BitVec.getLsbD_eq_getElem hi]

theorem State.extractLsb'_statusWord_reserved (s : State) : s.statusWord.extractLsb' 8 24 = 0 := by
  ext i hi
  rw [BitVec.getElem_extractLsb', show 8 + i = 4 + (4 + i) by omega, State.getLsbD_statusWord_add_four,
    BitVec.getLsbD_of_ge _ _ (Nat.le_add_right 4 i)]
  simp

/-- Settles O45: the STATUS word bit by bit, ERR being the test of the ERRCODE field. -/
theorem statusFieldsStandAtTheirBits : Obligations.StatusFieldsStandAtTheirBits := by
  unfold Obligations.StatusFieldsStandAtTheirBits
  refine ⟨fun s => ?_, rfl, rfl, rfl, rfl, rfl, rfl⟩
  obtain ⟨hbusy, hdone, herr, hovr⟩ := s.getLsbD_statusWord_flags
  have hcode := s.extractLsb'_statusWord_errcode
  refine ⟨hbusy, hdone, ?_, hovr, hcode, s.extractLsb'_statusWord_reserved⟩
  rw [herr, hcode]
  rfl

/-- Settles O46: a located write of a read-only register is no change. -/
theorem readOnlyRegistersIgnoreWrites : Obligations.ReadOnlyRegistersIgnoreWrites := by
  unfold Obligations.ReadOnlyRegistersIgnoreWrites
  intro s v
  exact ⟨State.hostWrite_of_locate (l := .id) rfl s v, State.hostWrite_of_locate (l := .param) rfl s v,
    State.hostWrite_of_locate (l := .status) rfl s v⟩

/-- A write of CTRL (10_state.md R29). -/
theorem State.hostWrite_ctrl (s : State) (v : Word) : s.hostWrite 32 0x008 v = s.writeCtrl v :=
  State.hostWrite_of_locate (l := .ctrl) rfl s v

theorem State.writeCtrl_of_srst {v : Word} (hv : v.getLsbD 0 = true) (s : State) : s.writeCtrl v = s.blockReset :=
  if_pos hv

/-- Settles O47: by the two bits of the written word. -/
theorem ctrlWriteActions : Obligations.CtrlWriteActions := by
  unfold Obligations.CtrlWriteActions
  intro s v
  rw [State.hostWrite_ctrl]
  refine ⟨fun h0 => ?_, fun h0 h1 => ?_, fun h0 h1 => ?_, State.hostRead_eq_observe (l := .ctrl) rfl rfl⟩
  · simp [State.writeCtrl_of_srst h0]
  · simp only [State.writeCtrl, h0, h1, Bool.false_eq_true, if_false, if_true]
  · simp only [State.writeCtrl, h0, h1, Bool.false_eq_true, if_false]

/-! ### Reset -/

@[simp] theorem State.blockReset_reg (s : State) (r : RegIdx) : s.blockReset.reg r = 0 := by
  simp only [State.reg, State.blockReset_x, Vector.getElem?_replicate]
  split <;> rfl

@[simp] theorem State.blockReset_statusWord (s : State) : s.blockReset.statusWord = 0 := by
  simp [State.statusWord, State.err, ErrCode.code]

theorem State.reset_blockReset : State.reset.blockReset = State.reset := rfl

/-- Settles O48: each of the three ways leads to the block's reset. -/
theorem resetLeavesTheResetValues : Obligations.ResetLeavesTheResetValues := by
  unfold Obligations.ResetLeavesTheResetValues
  intro s t h
  have ht : t = s.blockReset := by
    obtain hpin | rfl | ⟨rfl, rfl⟩ := h
    · cases hpin
      rfl
    · rw [State.hostWrite_ctrl, State.writeCtrl_of_srst rfl]
    · exact State.reset_blockReset.symm
  subst ht
  exact ⟨s.blockReset_reg, rfl, s.blockReset_statusWord, rfl, rfl, rfl, rfl, rfl, rfl⟩

/-- Settles O54: reset leaves the block idle with every register and latched value 0. -/
theorem resetIsWellFormed : Obligations.ResetIsWellFormed := by
  unfold Obligations.ResetIsWellFormed
  refine ⟨by decide, State.latchCoherent_of_idle rfl, fun values hvalues => ⟨rfl, rfl, rfl, rfl, fun p hp => ?_⟩⟩
  obtain ⟨hname, hzero⟩ := hvalues p hp
  rw [hzero]
  exact ⟨hname, State.reset.blockReset_reg p.1⟩

end Sys2Proof.Machine
end

section
/-! The memory statements: the words of a big register, the reserved offsets, reads without side effect, bad accesses. -/

namespace Sys2Proof.Machine

/-! ### Words of a big-register value -/

/-- Word j is the bits [32j+31:32j] of the value (20_memory.md R48). -/
theorem wordAt_eq_shiftRight (v j : Nat) : wordAt v j = BitVec.ofNat 32 (v >>> (32 * j)) := by
  rw [wordAt, Nat.shiftRight_eq_div_pow]

/-- A word below n depends only on the words below n. -/
theorem wordAt_mod {j n : Nat} (hj : j < n) (v : Nat) : wordAt (v % 2 ^ (32 * n)) j = wordAt v j := by
  ext k hk
  have hlow : k + 32 * j < 32 * n := by omega
  simp [wordAt, ← BitVec.getLsbD_eq_getElem, BitVec.getLsbD_ofNat, Nat.testBit_div_two_pow, Nat.testBit_mod_two_pow,
    hlow]

/-- A word from n on depends only on the words from n on. -/
theorem wordAt_div {j n : Nat} (hj : n ≤ j) (v : Nat) : wordAt (v / 2 ^ (32 * n)) (j - n) = wordAt v j := by
  rw [wordAt, Nat.div_div_eq_div_mul, ← pow_add, ← Nat.mul_add, Nat.add_sub_cancel' hj, wordAt]

/-- Writing word i leaves the words below it. -/
theorem setWordAt_mod (v i : Nat) (w : Word) : setWordAt v i w % 2 ^ (32 * i) = v % 2 ^ (32 * i) := by
  have hp : 2 ^ (32 * (i + 1)) = 2 ^ 32 * 2 ^ (32 * i) := by rw [← pow_add, Nat.mul_succ, Nat.add_comm]
  rw [setWordAt, hp, ← Nat.mul_assoc, ← Nat.add_mul, Nat.mul_add_mod_self_right, Nat.mod_mod]

/-- Writing word i leaves the words above it. -/
theorem setWordAt_div (v i : Nat) (w : Word) :
    setWordAt v i w / 2 ^ (32 * (i + 1)) = v / 2 ^ (32 * (i + 1)) := by
  have hlow : w.toNat * 2 ^ (32 * i) + v % 2 ^ (32 * i) < 2 ^ (32 * (i + 1)) := by
    have hv : v % 2 ^ (32 * i) < 2 ^ (32 * i) := Nat.mod_lt _ (Nat.two_pow_pos _)
    calc w.toNat * 2 ^ (32 * i) + v % 2 ^ (32 * i) < w.toNat * 2 ^ (32 * i) + 2 ^ (32 * i) := Nat.add_lt_add_left hv _
      _ = (w.toNat + 1) * 2 ^ (32 * i) := (Nat.succ_mul _ _).symm
      _ ≤ 2 ^ 32 * 2 ^ (32 * i) := Nat.mul_le_mul_right _ w.isLt
      _ = 2 ^ (32 * (i + 1)) := by rw [← pow_add, Nat.mul_succ, Nat.add_comm]
  rw [setWordAt, Nat.add_assoc, Nat.add_comm, Nat.add_mul_div_right _ _ (Nat.two_pow_pos _), Nat.div_eq_of_lt hlow,
    Nat.zero_add]

/-- A write of a word leaves the other words (20_memory.md R48). -/
theorem wordAt_setWordAt_of_ne {i j : Nat} (h : j ≠ i) (v : Nat) (w : Word) :
    wordAt (setWordAt v i w) j = wordAt v j := by
  obtain hlt | hgt := Nat.lt_or_gt_of_ne h
  · rw [← wordAt_mod hlt, setWordAt_mod, wordAt_mod hlt]
  · rw [← wordAt_div hgt, setWordAt_div, wordAt_div hgt]

/-! ### Accesses of a big register's words -/

/-- A read of a word from K on gives 0, busy or not (20_memory.md R48). -/
theorem State.readLoc_bigWord_of_le {s : State} {i : Nat} (hi : s.nwords ≤ i) (r : RegIdx) :
    s.readLoc (.bigWord r i) = (0, s) := if_pos hi

/-- A read of a word below K while idle gives that word of the register (20_memory.md R48). -/
theorem State.readLoc_bigWord_of_idle {s : State} {i : Nat} (hb : s.busy = false) (hi : i < s.nwords) (r : RegIdx) :
    s.readLoc (.bigWord r i) = (wordAt (s.reg r) i, s) := by
  simp [State.readLoc, hb, hi]

/-- A write of a word from K on is ignored, busy or not (20_memory.md R48). -/
theorem State.writeLoc_bigWord_of_le {s : State} {i : Nat} (hi : s.nwords ≤ i) (r : RegIdx) (v : Word) :
    s.writeLoc (.bigWord r i) v = s := if_pos hi

/-- A write of a word below K while idle replaces that word of the register (20_memory.md R48). -/
theorem State.writeLoc_bigWord_of_idle {s : State} {i : Nat} (hb : s.busy = false) (hi : i < s.nwords) (r : RegIdx)
    (v : Word) : s.writeLoc (.bigWord r i) v = s.setReg r (setWordAt (s.reg r) i v) := by
  simp [State.writeLoc, State.writeBigWord, hb, hi]

/-- Settles O37: the offset locates word i of register r, and the word's read and write are those of its register. -/
theorem bigRegisterWordsReadBack : Obligations.BigRegisterWordsReadBack := by
  unfold Obligations.BigRegisterWordsReadBack
  intro s r i v hb hr hi128
  have hl : locate (0x400 + 0x200 * r.toNat + 4 * i) = some (.bigWord r i) := locate_bigOffset hr hi128
  refine ⟨fun hi => ⟨?read, s.setReg r (setWordAt (s.reg r) i v), ?write, rfl, ?same, fun j hj => ?words,
      fun q _ hq => ?regs⟩,
    fun hi => ⟨State.hostRead_eq_observe hl (State.readLoc_bigWord_of_le hi r), ?ignored⟩⟩
  case read =>
    rw [← wordAt_eq_shiftRight]
    exact State.hostRead_eq_observe hl (State.readLoc_bigWord_of_idle hb hi r)
  case write => rw [State.hostWrite_of_locate hl, State.writeLoc_bigWord_of_idle hb hi]
  case same => rw [State.setReg_reg _ _ _ _ hr, if_pos rfl, wordAt_setWordAt_self]
  case words => rw [State.setReg_reg _ _ _ _ hr, if_pos rfl, wordAt_setWordAt_of_ne hj]
  case regs => rw [State.setReg_reg _ _ _ _ hr, if_neg hq]
  case ignored => rw [State.hostWrite_of_locate hl, State.writeLoc_bigWord_of_le hi]

/-! ### Accesses that leave the block -/

/-- No read changes the block's own state (20_memory.md R53). -/
theorem State.sameBlock_hostRead (s : State) (width off : Nat) : s.SameBlock (s.hostRead width off) := by
  obtain ⟨fr, obs, n, _, e⟩ := hostRead_run s width off
  rw [e]
  exact ⟨rfl, rfl, rfl, rfl, rfl, rfl, rfl, rfl, rfl, rfl⟩

/-- Settles O43: a read changes at most the run's fields. -/
theorem readsChangeNoBlockState : Obligations.ReadsChangeNoBlockState := by
  unfold Obligations.ReadsChangeNoBlockState
  exact State.sameBlock_hostRead

/-- An access that is no transaction changes no block state (60_exceptions.md R147). -/
theorem State.sameBlock_recordBadAccess (s : State) (op : HostOp) : s.SameBlock (s.recordBadAccess op) :=
  ⟨rfl, rfl, rfl, rfl, rfl, rfl, rfl, rfl, rfl, rfl⟩

/-! ### Bad accesses -/

/-- The accesses that are no transactions (20_memory.md R50). -/
theorem locateAccess_eq_none_iff (width off : Nat) :
    locateAccess width off = none ↔ width ≠ 32 ∨ off % 4 ≠ 0 ∨ 0x2000 ≤ off := by
  rw [← locate_eq_none_iff, locateAccess]
  split <;> simp [*]

theorem State.hostRead_of_bad {width off : Nat} (h : locateAccess width off = none) (s : State) :
    s.hostRead width off = s.recordBadAccess (.read width off) := by
  rw [State.hostRead, h]

theorem State.hostWrite_of_bad {width off : Nat} (h : locateAccess width off = none) (s : State) (v : Word) :
    s.hostWrite width off v = s.recordBadAccess (.write width off v) := by
  rw [State.hostWrite, h]

/-- A read of a location leaves the fault record. -/
@[simp] theorem State.readLoc_faultRecord (s : State) (l : Location) : (s.readLoc l).2.faultRecord = s.faultRecord := by
  obtain ⟨n, e⟩ := readLoc_snd s l
  rw [e]

/-- A write of a location leaves the fault record, the soft reset included (60_exceptions.md R147). -/
@[simp] theorem State.writeLoc_faultRecord (s : State) (l : Location) (v : Word) :
    (s.writeLoc l v).faultRecord = s.faultRecord := by
  cases l with
  | id | param | status | reserved | irqEn => rfl
  | ctrl =>
    rw [State.writeLoc, State.writeCtrl]
    split
    · rfl
    · split <;> rfl
  | cmd =>
    rw [State.writeLoc, State.writeCmd]
    split <;> rfl
  | irqPend =>
    simp only [State.writeLoc]
    split <;> rfl
  | bigWord r i =>
    rw [State.writeLoc, State.writeBigWord]
    split
    · rfl
    · split <;> rfl

/-- Settles O50: an access that is located nowhere is recorded, and a located one leaves the record. -/
theorem badAccessIsRecorded : Obligations.BadAccessIsRecorded := by
  unfold Obligations.BadAccessIsRecorded
  intro s width off v
  refine ⟨fun hbad => ?_, fun hwidth halign hrange => ?_⟩
  · have hnone := (locateAccess_eq_none_iff width off).2 hbad
    rw [State.hostRead_of_bad hnone, State.hostWrite_of_bad hnone]
    exact ⟨rfl, s.sameBlock_recordBadAccess _, rfl, s.sameBlock_recordBadAccess _⟩
  · subst hwidth
    have hsome : locate off ≠ none := fun h => by
      rcases (locate_eq_none_iff off).1 h with h | h <;> omega
    obtain ⟨l, hl⟩ := Option.ne_none_iff_exists'.1 hsome
    rw [State.hostRead_of_locate hl, State.hostWrite_of_locate hl]
    simp

/-! ### Reserved offsets -/

/-- Nothing stands at the reserved offsets of the window (20_memory.md R52). -/
theorem locate_of_reserved {off : Nat} (halign : off % 4 = 0)
    (h : off = 0x00C ∨ (0x020 ≤ off ∧ off ≤ 0x3FC) ∨ (0x1A00 ≤ off ∧ off ≤ 0x1FFC)) : locate off = some .reserved := by
  unfold locate
  rw [if_neg (by omega)]
  rcases h with rfl | ⟨hlo, hhi⟩ | ⟨hlo, hhi⟩
  · rfl
  · rw [if_pos (by omega)]
    split
    case h_8 => rfl
    all_goals omega
  · rw [if_neg (by omega), if_neg (by omega)]

/-- Settles O42: a reserved location reads 0 and keeps nothing. -/
theorem reservedOffsetsReadZero : Obligations.ReservedOffsetsReadZero := by
  unfold Obligations.ReservedOffsetsReadZero
  intro s off v halign hoff
  have hl := locate_of_reserved halign hoff
  exact ⟨State.hostRead_eq_observe hl rfl, State.hostWrite_of_locate hl s v⟩

end Sys2Proof.Machine
end

section
/-! The encoding statements: which words decode, the round trip of encoder and decoder, and reserved indices. -/

namespace Sys2Proof

/-! ### The words a row of the opcode table matches -/

/-- The row of an opcode matches a word: the fixed bits of the opcode's format are its code (30_encoding.md R68). -/
def Op.Matches (op : Op) (w : Word) : Prop := w &&& op.format.mask = op.code.setWidth 32

theorem Op.Matches.and_mask {op : Op} {w : Word} (h : op.Matches w) :
    w &&& op.format.mask = op.code.setWidth 32 := h

theorem opField_and (v w : Word) : opField (v &&& w) = opField v &&& opField w := BitVec.extractLsb'_and

@[simp] theorem opField_setWidth (c : BitVec 8) : opField (c.setWidth 32) = c := by
  ext i hi
  have hlt : i < 32 := by omega
  simp [opField, hlt, BitVec.getLsbD_eq_getElem hi]

/-- OP belongs to the fixed bits of every format (30_encoding.md R66). -/
theorem opField_mask (fmt : Format) : opField fmt.mask = BitVec.allOnes 8 := by cases fmt <;> rfl

/-- A matching word's OP is the code of the opcode. -/
theorem Op.Matches.opField_eq {op : Op} {w : Word} (h : op.Matches w) : opField w = op.code := by
  have hop : opField (w &&& op.format.mask) = opField (op.code.setWidth 32) := congrArg opField h.and_mask
  rwa [opField_and, opField_mask, BitVec.and_allOnes, opField_setWidth] at hop

/-- A word decodes to a command exactly when the row of an opcode matches it, the used fields name registers, and the
command is built from those fields (30_encoding.md R68, R70, R72). -/
theorem decode_eq_ok_iff (w : Word) (i : Instr) :
    decode w = .ok i ↔
      ∃ op : Op, op.Matches w ∧ (∀ f ∈ op.format.fields, namesReg (f.of w) = true) ∧ op.build w = i := by
  constructor
  · intro hd
    unfold decode at hd
    split at hd
    · cases hd
    · rename_i op _
      split at hd
      · cases hd
      · split at hd
        · cases hd
          exact ⟨op, not_not.1 ‹_›, List.all_eq_true.1 ‹_›, rfl⟩
        · cases hd
  · rintro ⟨op, hmatch, hfields, rfl⟩
    simp [decode, hmatch.opField_eq, hmatch.and_mask, List.all_eq_true.2 hfields]

/-! ### A matching word is the encoding of its command -/

theorem Field.of_and (f : Field) (v w : Word) : f.of (v &&& w) = f.of v &&& f.of w := BitVec.extractLsb'_and

/-- The register fields stand above OP (30_encoding.md R65). -/
theorem Field.eight_le_lo (f : Field) : 8 ≤ f.lo := by cases f <;> decide

@[simp] theorem Field.of_setWidth (f : Field) (c : BitVec 8) : f.of (c.setWidth 32) = 0 := by
  ext i hi
  have hlo : 8 ≤ f.lo + i := f.eight_le_lo.trans (Nat.le_add_right ..)
  simp [Field.of, BitVec.getLsbD_of_ge c _ hlo]

/-- The bits of a field that a format does not use are fixed (30_encoding.md R66). -/
theorem of_mask_of_not_mem {fmt : Format} {f : Field} (hf : f ∉ fmt.fields) : f.of fmt.mask = BitVec.allOnes 4 := by
  revert hf
  cases fmt <;> cases f <;> decide

/-- A matching word holds 0 in every field its format does not use (30_encoding.md R66, R68). -/
theorem Op.Matches.of_eq_zero {op : Op} {w : Word} (h : op.Matches w) {f : Field} (hf : f ∉ op.format.fields) :
    f.of w = 0 := by
  have hfield : f.of (w &&& op.format.mask) = f.of (op.code.setWidth 32) := congrArg f.of h.and_mask
  rwa [Field.of_and, of_mask_of_not_mem hf, BitVec.and_allOnes, Field.of_setWidth] at hfield

/-- The bits [31:28] are fixed in every format (30_encoding.md R66). -/
theorem mask_and_reserved (fmt : Format) : fmt.mask &&& 0xF0000000#32 = 0xF0000000#32 := by cases fmt <;> rfl

theorem code_and_reserved (op : Op) : op.code.setWidth 32 &&& 0xF0000000#32 = 0#32 := by cases op <;> rfl

/-- A matching word holds 0 in the bits [31:28] (30_encoding.md R66, R68). -/
theorem Op.Matches.and_reserved {op : Op} {w : Word} (h : op.Matches w) : w &&& 0xF0000000#32 = 0#32 := by
  rw [← mask_and_reserved op.format, ← BitVec.and_assoc, h.and_mask, code_and_reserved]

/-- A matching word is made of its opcode's code and its register fields (30_encoding.md R75). -/
theorem Op.Matches.encodeFields_eq {op : Op} {w : Word} (h : op.Matches w) :
    encodeFields op.code (Field.rd.of w) (Field.rs1.of w) (Field.rs2.of w) (Field.rs3x.of w) (Field.ry.of w) = w := by
  calc _ = w &&& 0x0FFFFFFF#32 := by rw [← h.opField_eq, encodeFields_of_word]
    _ = w &&& 0x0FFFFFFF#32 ||| w &&& 0xF0000000#32 := by rw [h.and_reserved, BitVec.or_zero]
    _ = w &&& BitVec.allOnes 32 := (BitVec.and_or_distrib_left ..).symm
    _ = w := BitVec.and_allOnes

/-- A matching word is the encoding of the command built from it (30_encoding.md R75). -/
theorem Op.Matches.encode_build {op : Op} {w : Word} (h : op.Matches w) : encode (op.build w) = w := by
  have hunused : ∀ f, f ∉ op.format.fields → f.of w = 0 := fun _ => h.of_eq_zero
  calc encode (op.build w)
    _ = encodeFields op.code (Field.rd.of w) (Field.rs1.of w) (Field.rs2.of w) (Field.rs3x.of w) (Field.ry.of w) := by
      cases op <;> simp [Op.build, encode, Op.format, Format.fields, hunused]
    _ = w := h.encodeFields_eq

/-- The command built from a matching word whose used fields name registers is well formed (30_encoding.md R70). -/
theorem Op.Matches.wf_build {op : Op} {w : Word} (h : op.Matches w)
    (hfields : ∀ f ∈ op.format.fields, namesReg (f.of w) = true) : (op.build w).wf = true := by
  rw [← fields_encode_all_namesReg, op_build, h.encode_build]
  exact List.all_eq_true.2 hfields

/-! ### The opcode table as data -/

/-- Every opcode, in the order of the opcode map (30_encoding.md R69). -/
def Op.all : List Op :=
  [.nop, .mov, .gcd, .xgcd, .inv, .modred, .modmul, .montmul, .modexp, .rsaenc, .rsadec]

theorem Op.mem_all (op : Op) : op ∈ Op.all := by cases op <;> decide

/-- The row of an opcode: match, mask and the lowest bit of each used field (30_encoding.md R66, R69). -/
def Op.row (op : Op) : Word × Word × List Nat :=
  (op.code.setWidth 32, op.format.mask, op.format.fields.map Field.lo)

/-- The opcode table holds one row for each opcode, the decoder's (30_encoding.md R69). -/
theorem commandRows_eq_map_row : Claims.commandRows = Op.all.map Op.row := rfl

theorem namesReg_iff_le (r : RegIdx) : namesReg r = true ↔ r.toNat ≤ 10 :=
  (Machine.namesReg_iff r).trans Nat.lt_succ_iff

/-- The legal words of the opcode table are those that an opcode's row matches with register names in the used
fields (30_encoding.md R68, R70, R71). -/
theorem legal_iff (w : Word) :
    Claims.Legal w ↔ ∃ op : Op, op.Matches w ∧ ∀ f ∈ op.format.fields, namesReg (f.of w) = true := by
  simp only [Claims.Legal, commandRows_eq_map_row, List.mem_map, Op.mem_all, true_and, exists_exists_eq_and, Op.row,
    forall_exists_index, and_imp, forall_apply_eq_imp_iff₂, Op.Matches, namesReg_iff_le, Field.of]

/-! ### The statements -/

/-- Settles O2: the encoded word's fixed bits and fields are those of the command (`decode_encode`). -/
theorem everyLegalCommandRoundTrips : Obligations.EveryLegalCommandRoundTrips := by
  unfold Obligations.EveryLegalCommandRoundTrips
  intro i hwf
  exact decode_encode hwf

/-- Settles O3: a word that decodes matches a row, so its opcode and its fields are all it holds. -/
theorem decodedWordsReencode : Obligations.DecodedWordsReencode := by
  unfold Obligations.DecodedWordsReencode
  intro w i hd
  obtain ⟨op, hmatch, hfields, rfl⟩ := (decode_eq_ok_iff w i).1 hd
  exact ⟨hmatch.wf_build hfields, hmatch.encode_build⟩

/-- Settles O4: the decoder and the table ask the same of a word, row by row. -/
theorem decodableWordsAreTheTables : Obligations.DecodableWordsAreTheTables := by
  unfold Obligations.DecodableWordsAreTheTables
  intro w
  rw [legal_iff]
  constructor
  · rintro ⟨i, hd⟩
    obtain ⟨op, hmatch, hfields, _⟩ := (decode_eq_ok_iff w i).1 hd
    exact ⟨op, hmatch, hfields⟩
  · rintro ⟨op, hmatch, hfields⟩
    exact ⟨op.build w, (decode_eq_ok_iff w _).2 ⟨op, hmatch, hfields, rfl⟩⟩

/-- Settles O32: the result of an ill-formed command is ILLEGAL, whatever the latched operands. -/
theorem reservedIndexIsIllegalFirst : Obligations.ReservedIndexIsIllegalFirst := by
  unfold Obligations.ReservedIndexIsIllegalFirst
  intro i s hwf
  rw [Machine.exec_eq, Machine.execResult_illegal _ _ hwf, Machine.State.complete_error]

/-- Settles O1: the decoder evaluated on each example. -/
theorem encodingExamplesDecode : Obligations.EncodingExamplesDecode := by
  unfold Obligations.EncodingExamplesDecode
  exact ⟨rfl, rfl, rfl, rfl, rfl, rfl, rfl, rfl, rfl, rfl, rfl⟩

end Sys2Proof
end

section
/-! The control statements: a command whose result is a commit, and the results of NOP and MOV. -/

namespace Sys2Proof.Machine

/-! ### A command whose result is a commit -/

/-- A command whose result is a list of writes commits the values those writes leave (10_state.md R38). -/
theorem exec_commitsTo {i : Instr} {s : State} {ws : List (RegIdx × Nat)} {val : RegIdx → Nat}
    (hres : execResult i s.latch s.width = .commit ws)
    (hval : ∀ r, namesReg r = true → (s.complete (.commit ws)).reg r = val r) : s.CommitsTo (exec i s) val := by
  rw [exec_eq, hres]
  exact ⟨_, rfl, rfl, hval⟩

/-- The registers after the commit of one write: its value at the destination, the others as they were. -/
theorem State.reg_complete_commit_one {rd : RegIdx} (hd : namesReg rd = true) (s : State) (v : Nat) (r : RegIdx) :
    (s.complete (.commit [(rd, v)])).reg r = s.withDest rd v r :=
  reg_write_one s.x rd r v hd

/-- A command whose result is one write commits its value to the destination and nothing else. -/
theorem exec_commitsTo_withDest {i : Instr} {s : State} {rd : RegIdx} {v : Nat} (hd : namesReg rd = true)
    (hres : execResult i s.latch s.width = .commit [(rd, v)]) : s.CommitsTo (exec i s) (s.withDest rd v) :=
  exec_commitsTo hres fun r _ => s.reg_complete_commit_one hd v r

/-! ### NOP and MOV -/

/-- The result of NOP is the empty commit (40_control.md R81). -/
theorem execResult_nop (l : Latch) (w : Nat) : execResult .nop l w = .commit [] := rfl

/-- The result of MOV is the write of its latched source (40_control.md R82). -/
theorem execResult_mov {rd rs1 : RegIdx} (hwf : (Instr.mov rd rs1).wf = true) (l : Latch) (w : Nat) :
    execResult (.mov rd rs1) l w = .commit [(rd, l.rs1)] :=
  if_pos hwf

/-- Settles O11: the empty commit leaves every register as it was. -/
theorem nopCommitsNothing : Obligations.NopCommitsNothing := by
  unfold Obligations.NopCommitsNothing
  intro s
  exact exec_commitsTo (execResult_nop _ _) fun _ _ => rfl

/-- Settles O12: the result of a well-formed MOV is one write, of the latched source to the destination. -/
theorem movCopiesItsSource : Obligations.MovCopiesItsSource := by
  unfold Obligations.MovCopiesItsSource
  intro s rd rs1 hd hs
  have hwf : (Instr.mov rd rs1).wf = true := by simp [Instr.wf, Instr.dests, Instr.sources, hd, hs]
  exact exec_commitsTo_withDest hd (execResult_mov hwf _ _)

end Sys2Proof.Machine
end

section
/-! The GCD and inverse statements: EGCD follows Euclid's recursion, its pair fits the register width, and the results
of GCD, XGCD and INV. -/

namespace Sys2Proof.Machine

/-! ### EGCD by Euclid's recursion -/

/-- One turn of EGCD's loop (41_gcd_inverse.md R87). -/
theorem egcdLoop_succ {r1 : Nat} (h : r1 ≠ 0) (fuel r0 : Nat) (s0 s1 t0 t1 : Int) :
    egcdLoop (fuel + 1) r0 r1 s0 s1 t0 t1 =
      egcdLoop fuel r1 (r0 % r1) s1 (s0 - (r0 / r1 : Nat) * s1) t1 (t0 - (r0 / r1 : Nat) * t1) :=
  if_neg h

@[simp] theorem egcdLoop_zero_right (fuel r0 : Nat) (s0 s1 t0 t1 : Int) :
    egcdLoop fuel r0 0 s0 s1 t0 t1 = (r0, s0, t0) := by
  cases fuel <;> rfl

@[simp] theorem egcd_zero_right (a : Nat) : egcd a 0 = (a, 1, 0) := rfl

theorem egcd_succ (a n : Nat) :
    egcd a (n + 1) =
      egcdLoop n (n + 1) (a % (n + 1)) 0 (1 - (a / (n + 1) : Nat) * 0) 1 (0 - (a / (n + 1) : Nat) * 1) :=
  egcdLoop_succ n.succ_ne_zero ..

/-- The loop combines the coefficients it starts with by the pair of its remainders, whatever bound it is given. -/
theorem egcdLoop_eq_egcd {fuel r0 r1 : Nat} (hf : r1 ≤ fuel) (s0 s1 t0 t1 : Int) :
    egcdLoop fuel r0 r1 s0 s1 t0 t1 =
      ((egcd r0 r1).1, s0 * (egcd r0 r1).2.1 + s1 * (egcd r0 r1).2.2,
        t0 * (egcd r0 r1).2.1 + t1 * (egcd r0 r1).2.2) := by
  induction fuel using Nat.strong_induction_on generalizing r0 r1 s0 s1 t0 t1 with
  | _ fuel ih =>
    cases r1 with
    | zero => simp
    | succ n =>
      obtain ⟨f, rfl⟩ := Nat.exists_eq_add_of_lt hf
      have hr : r0 % (n + 1) ≤ n := Nat.le_of_lt_succ (Nat.mod_lt _ n.succ_pos)
      rw [egcdLoop_succ n.succ_ne_zero, egcd_succ, ih (n + f) (Nat.lt_succ_self _) (hr.trans (Nat.le_add_right n f)),
        ih n (by omega) hr]
      simp only [Prod.mk.injEq, true_and]
      constructor <;> ring

/-- The pair of (a, b) is that of (b, a mod b) carried back (41_gcd_inverse.md R87). -/
theorem egcd_of_ne_zero {b : Nat} (h : b ≠ 0) (a : Nat) :
    egcd a b = ((egcd b (a % b)).1, (egcd b (a % b)).2.2,
      (egcd b (a % b)).2.1 - (a / b : Nat) * (egcd b (a % b)).2.2) := by
  obtain ⟨n, rfl⟩ := Nat.exists_eq_succ_of_ne_zero h
  have hr : a % (n + 1) ≤ n := Nat.le_of_lt_succ (Nat.mod_lt _ n.succ_pos)
  rw [egcd_succ, egcdLoop_eq_egcd hr]
  simp only [Prod.mk.injEq, true_and]
  constructor <;> ring

/-- Settles O17: one turn of the loop leads to the loop of (b, a mod b), which is linear in the coefficients. -/
theorem egcdFollowsEuclid : Obligations.EgcdFollowsEuclid := by
  unfold Obligations.EgcdFollowsEuclid
  exact ⟨egcd_zero_right, fun a b hb => egcd_of_ne_zero hb a⟩

/-! ### EGCD's pair fits the register width -/

/-- The size of EGCD's pair (41_gcd_inverse.md R88): the first coefficient is at most half of b, the second at most half
of a, except where it is 1, as when b divides a. -/
theorem two_mul_abs_egcd_le {b : Nat} (a : Nat) (h : b ≠ 0) :
    2 * |(egcd a b).2.1| ≤ b ∧ (2 * |(egcd a b).2.2| ≤ a ∨ (egcd a b).2.2 = 1) := by
  induction b, a using Nat.gcd.induction with
  | H0 a => exact absurd rfl h
  | H1 b a hb ih =>
    rw [egcd_of_ne_zero h]
    by_cases hr : a % b = 0
    · simp [hr]
    · have hlt : a % b < b := Nat.mod_lt a hb
      obtain ⟨hx, hy⟩ := ih hr
      generalize (egcd b (a % b)).2.1 = x at hx ⊢
      generalize (egcd b (a % b)).2.2 = y at hy ⊢
      have hy' : 2 * |y| ≤ b := by
        obtain hy | rfl := hy
        · exact hy
        · rw [abs_one]; omega
      refine ⟨hy', .inl ?_⟩
      calc 2 * |x - (a / b : Nat) * y| ≤ 2 * (|x| + |((a / b : Nat) : Int) * y|) := by gcongr; exact abs_sub _ _
        _ = 2 * |x| + (a / b : Nat) * (2 * |y|) := by rw [abs_mul, Nat.abs_cast]; ring
        _ ≤ (a % b : Nat) + (a / b : Nat) * b := by gcongr
        _ = a := by exact_mod_cast Nat.mod_add_div' a b

/-- EGCD's pair survives its two's-complement patterns (41_gcd_inverse.md R88). -/
theorem sextW_tcW_egcd {w a b : Nat} (hw : 2 ≤ w) (ha : a < 2 ^ w) (hb : b < 2 ^ w) :
    sextW w (tcW w (egcd a b).2.1) = (egcd a b).2.1 ∧ sextW w (tcW w (egcd a b).2.2) = (egcd a b).2.2 := by
  have hpow : 2 ^ w = 2 * 2 ^ (w - 1) := by rw [← pow_succ', Nat.sub_add_cancel (by omega)]
  have hone : 1 < 2 ^ (w - 1) := Nat.one_lt_two_pow (by omega)
  have hfit : ∀ c : Int, |c| < (2 ^ (w - 1) : Nat) → sextW w (tcW w c) = c := fun c hc =>
    sextW_tcW (by omega) (abs_lt.1 hc).1.le (abs_lt.1 hc).2
  by_cases h : b = 0
  · subst h
    exact ⟨hfit 1 (by rw [abs_one]; exact_mod_cast hone), hfit 0 (by rw [abs_zero]; omega)⟩
  · obtain ⟨hs, ht⟩ := two_mul_abs_egcd_le a h
    refine ⟨hfit _ (by omega), hfit _ ?_⟩
    obtain ht | ht := ht
    · omega
    · rw [ht, abs_one]; omega

/-! ### GCD -/

/-- The result of GCD is the write of the greatest common divisor (41_gcd_inverse.md R84). -/
theorem execResult_gcd {rd rs1 rs2 : RegIdx} (hwf : (Instr.gcd rd rs1 rs2).wf = true) (l : Latch) (w : Nat) :
    execResult (.gcd rd rs1 rs2) l w = .commit [(rd, Nat.gcd l.rs1 l.rs2)] :=
  if_pos hwf

theorem wf_gcd {rd rs1 rs2 : RegIdx} (hd : namesReg rd = true) (h1 : namesReg rs1 = true) (h2 : namesReg rs2 = true) :
    (Instr.gcd rd rs1 rs2).wf = true := by
  simp [Instr.wf, Instr.dests, Instr.sources, hd, h1, h2]

/-- Settles O13: the result of a well-formed GCD is one write. -/
theorem gcdWritesTheGcd : Obligations.GcdWritesTheGcd := by
  unfold Obligations.GcdWritesTheGcd
  intro s rd rs1 rs2 hd h1 h2
  exact exec_commitsTo_withDest hd (execResult_gcd (wf_gcd hd h1 h2) _ _)

/-- A command's word uses the fields of its format (30_encoding.md R69). -/
@[simp] theorem usedFields_encode (i : Instr) : usedFields (encode i) = i.op.format.fields := by
  simp [usedFields]

/-- Acceptance of a well-formed command's word latches the registers that its fields name (10_state.md R37). -/
theorem State.latchOf_encode_val (s : State) {i : Instr} (hwf : i.wf = true) {f : Field}
    (hf : f ∈ i.op.format.fields) : (s.latchOf (encode i)).val f = s.reg (f.of (encode i)) := by
  have hn : namesReg (f.of (encode i)) = true := List.all_eq_true.1 ((fields_encode_all_namesReg i).2 hwf) f hf
  rw [State.latchOf_val, usedFields_encode, if_pos ⟨hf, hn⟩]

/-- An issued GCD commits the greatest common divisor of the registers it names (41_gcd_inverse.md R84). -/
theorem engineTurn_accept_gcd (s : State) {rd ra rb : RegIdx} (hd : namesReg rd = true) (ha : namesReg ra = true)
    (hb : namesReg rb = true) :
    (s.accept (encode (.gcd rd ra rb))).CommitsTo (engineTurn (s.accept (encode (.gcd rd ra rb))))
      (s.withDest rd (Nat.gcd (s.reg ra) (s.reg rb))) := by
  have hwf := wf_gcd hd ha hb
  have h1 : (s.latchOf (encode (.gcd rd ra rb))).rs1 = s.reg ra :=
    (s.latchOf_encode_val hwf (f := .rs1) (.tail _ (.head _))).trans (congrArg s.reg (of_encodeFields ..))
  have h2 : (s.latchOf (encode (.gcd rd ra rb))).rs2 = s.reg rb :=
    (s.latchOf_encode_val hwf (f := .rs2) (.tail _ (.tail _ (.head _)))).trans (congrArg s.reg (of_encodeFields ..))
  rw [engineTurn_of_decode rfl (by simpa using decode_encode hwf), ← h1, ← h2]
  exact gcdWritesTheGcd _ rd ra rb hd ha hb

/-- Settles O14: both commands leave the same register file, since gcd is symmetric. -/
theorem gcdSourceOrderDoesNotMatter : Obligations.GcdSourceOrderDoesNotMatter := by
  unfold Obligations.GcdSourceOrderDoesNotMatter
  intro s rd ra rb _ hd ha hb
  obtain ⟨t, ht, -, htreg⟩ := engineTurn_accept_gcd s hd ha hb
  obtain ⟨u, hu, -, hureg⟩ := engineTurn_accept_gcd s hd hb ha
  have hreg : ∀ r, namesReg r = true → t.reg r = u.reg r := fun r hr => by
    rw [htreg r hr, hureg r hr, Nat.gcd_comm]
  exact ⟨t, u, ht, hu, regs_ext hreg, hreg rd hd⟩

/-! ### XGCD -/

theorem namesReg_dests_of_wf_xgcd {rd rx ry rs1 rs2 : RegIdx} (hwf : (Instr.xgcd rd rx ry rs1 rs2).wf = true) :
    namesReg rd = true ∧ namesReg rx = true ∧ namesReg ry = true := by
  simpa [Instr.dests] using (Bool.and_eq_true_iff.1 hwf).1

/-- The result of XGCD is its three writes, in their order (41_gcd_inverse.md R89). -/
theorem execResult_xgcd {rd rx ry rs1 rs2 : RegIdx} (hwf : (Instr.xgcd rd rx ry rs1 rs2).wf = true) (l : Latch)
    (w : Nat) :
    execResult (.xgcd rd rx ry rs1 rs2) l w =
      .commit [(rd, (egcd l.rs1 l.rs2).1), (rx, tcW w (egcd l.rs1 l.rs2).2.1), (ry, tcW w (egcd l.rs1 l.rs2).2.2)] :=
  if_pos hwf

/-- The registers after the commit of three writes: the last write to each stays. -/
theorem State.reg_complete_commit_three {rd rx ry : RegIdx} (hd : namesReg rd = true) (hx : namesReg rx = true)
    (hy : namesReg ry = true) (s : State) (g x y : Nat) (r : RegIdx) :
    (s.complete (.commit [(rd, g), (rx, x), (ry, y)])).reg r =
      if r = ry then y else if r = rx then x else if r = rd then g else s.reg r := by
  have hlast := reg_write_one ((s.x.setIfInBounds rd.toNat g).setIfInBounds rx.toNat x) ry r y hy
  rwa [reg_write_one _ rx r x hx, reg_write_one _ rd r g hd] at hlast

/-- Settles O15: the result of a well-formed XGCD is its three writes in order. -/
theorem xgcdWritesInOrder : Obligations.XgcdWritesInOrder := by
  unfold Obligations.XgcdWritesInOrder
  intro s rd rx ry rs1 rs2 hwf
  obtain ⟨hd, hx, hy⟩ := namesReg_dests_of_wf_xgcd hwf
  exact exec_commitsTo (execResult_xgcd hwf _ _) fun r _ => s.reg_complete_commit_three hd hx hy _ _ _ r

/-- Settles O16: with three different destinations each of the three writes stays, and the patterns read back. -/
theorem xgcdLeavesAnExactBezoutPair : Obligations.XgcdLeavesAnExactBezoutPair := by
  unfold Obligations.XgcdLeavesAnExactBezoutPair
  intro s rd rx ry rs1 rs2 ⟨⟨hk, _⟩, _, hlatch, _⟩ hwf hdx hdy hxy
  obtain ⟨hd, hx, hy⟩ := namesReg_dests_of_wf_xgcd hwf
  obtain ⟨t, ht, hframe, hreg⟩ := xgcdWritesInOrder s rd rx ry rs1 rs2 hwf
  have hw : 2 ≤ s.width := by unfold State.width; omega
  obtain ⟨hsx, hsy⟩ := sextW_tcW_egcd hw (hlatch s.latch.rs1 (by simp [Latch.values]))
    (hlatch s.latch.rs2 (by simp [Latch.values]))
  have hrd : t.reg rd = Nat.gcd s.latch.rs1 s.latch.rs2 := by simpa [hdx, hdy, egcd_gcd] using hreg rd hd
  have hrx : sextW s.width (t.reg rx) = (egcd s.latch.rs1 s.latch.rs2).2.1 := by simpa [hreg rx hx, hxy] using hsx
  have hry : sextW s.width (t.reg ry) = (egcd s.latch.rs1 s.latch.rs2).2.2 := by simpa [hreg ry hy] using hsy
  refine ⟨t, ht, by rw [hframe]; rfl, hrd, hrx, hry, ?_⟩
  rw [hrx, hry, hrd, egcd_bezout]

/-! ### INV -/

/-- INV has the destination and the sources of GCD's format (30_encoding.md R70). -/
theorem wf_inv {rd rs1 rs2 : RegIdx} (hd : namesReg rd = true) (h1 : namesReg rs1 = true) (h2 : namesReg rs2 = true) :
    (Instr.inv rd rs1 rs2).wf = true :=
  wf_gcd hd h1 h2

/-- The result of INV for a non-zero modulus: the write of the inverse where the operands are coprime, NOTINV
otherwise (41_gcd_inverse.md R90). -/
theorem execResult_inv {rd rs1 rs2 : RegIdx} (hwf : (Instr.inv rd rs1 rs2).wf = true) {l : Latch} (hm : l.rs2 ≠ 0)
    (w : Nat) :
    execResult (.inv rd rs1 rs2) l w =
      if Nat.gcd l.rs1 l.rs2 = 1 then .commit [(rd, inverseMod l.rs1 l.rs2)] else .error .notinv := by
  have hgcd : (egcd (l.rs1 % l.rs2) l.rs2).1 = Nat.gcd l.rs1 l.rs2 := by
    rw [egcd_gcd, ← Nat.gcd_rec, Nat.gcd_comm]
  rw [execResult, if_pos hwf]
  simp [Result.withModulus_pos hm, hgcd]

/-- Settles O18: EGCD's inverse is below the modulus, inverts, and is unique. -/
theorem invWritesTheUniqueInverse : Obligations.InvWritesTheUniqueInverse := by
  unfold Obligations.InvWritesTheUniqueInverse
  intro s rd rs1 rs2 hd h1 h2 hm hc
  have hlt := inverseMod_lt s.latch.rs1 hm
  have hinv := inverseMod_spec s.latch.rs1 hm hc
  refine ⟨_, hlt, hinv, fun v hv hav => inverse_unique hlt hv hinv hav, ?_⟩
  exact exec_commitsTo_withDest hd ((execResult_inv (wf_inv hd h1 h2) hm _).trans (if_pos hc))

/-- Settles O19: the result is the error NOTINV, which writes nothing. -/
theorem invReportsNotInvertible : Obligations.InvReportsNotInvertible := by
  unfold Obligations.InvReportsNotInvertible
  intro s rd rs1 rs2 hd h1 h2 hm hc
  rw [exec_eq, execResult_inv (wf_inv hd h1 h2) hm, if_neg hc, State.complete_error]

end Sys2Proof.Machine
end

section
/-! The modular multiplication statements: the results of MODRED, MODMUL and MONTMUL, and the Montgomery radix and its
inverse. -/

namespace Sys2Proof.Machine

/-! ### The Montgomery radix and its inverse -/

/-- Settles O23: 2^W is coprime to an odd modulus, and an inverse below the modulus is unique. -/
theorem montgomeryRadixHasAUniqueInverse : Obligations.MontgomeryRadixHasAUniqueInverse := by
  unfold Obligations.MontgomeryRadixHasAUniqueInverse
  refine ⟨fun w n hn => ?_, fun w => Nat.lt_one_iff.1 (rinv_lt w one_ne_zero)⟩
  have hlt := rinv_lt w (show n ≠ 0 by omega)
  have hinv := rinv_spec w hn
  exact ⟨hlt, hinv, fun v hv h => inverse_unique hlt hv hinv h⟩

/-- Rinv cancels the radix: a value in the Montgomery domain leaves it by multiplication by Rinv (42_modmul.md R97). -/
theorem mul_rinv_modEq {n : Nat} (hn : n % 2 = 1) {w x y : Nat} (h : x ≡ y * 2 ^ w [MOD n]) :
    x * rinv w n ≡ y [MOD n] :=
  calc x * rinv w n ≡ y * 2 ^ w * rinv w n [MOD n] := h.mul_right _
    _ = y * (2 ^ w * rinv w n) := mul_assoc ..
    _ ≡ y * 1 [MOD n] := Nat.ModEq.mul_left y (rinv_spec w hn)
    _ = y := mul_one y

/-- The Montgomery product times the radix is the product (42_modmul.md R98). -/
theorem mul_rinv_mod_mul_two_pow_modEq {n : Nat} (hn : n % 2 = 1) (w x : Nat) :
    x * rinv w n % n * 2 ^ w ≡ x [MOD n] :=
  calc x * rinv w n % n * 2 ^ w ≡ x * rinv w n * 2 ^ w [MOD n] := (Nat.mod_modEq _ n).mul_right _
    _ = x * 2 ^ w * rinv w n := mul_right_comm ..
    _ ≡ x [MOD n] := mul_rinv_modEq hn rfl

/-- Settles O26: reduction drops out of a factor, and Rinv cancels one factor 2^W. -/
theorem montgomeryIdentities : Obligations.MontgomeryIdentities := by
  unfold Obligations.MontgomeryIdentities
  intro w n hn
  refine ⟨fun a b => ?products, fun a => ?into, fun a => ?outOf, fun a b => ?twoSteps⟩
  case products =>
    apply mul_rinv_modEq hn
    calc a * 2 ^ w % n * (b * 2 ^ w % n) ≡ a * 2 ^ w * (b * 2 ^ w) [MOD n] :=
        (Nat.mod_modEq _ n).mul (Nat.mod_modEq _ n)
      _ = a * b * 2 ^ w * 2 ^ w := by ring
  case into =>
    apply mul_rinv_modEq hn
    calc a * ((2 ^ w) ^ 2 % n) ≡ a * (2 ^ w) ^ 2 [MOD n] := (Nat.mod_modEq _ n).mul_left a
      _ = a * 2 ^ w * 2 ^ w := by ring
  case outOf =>
    apply mul_rinv_modEq hn
    rw [mul_one]
    exact Nat.mod_modEq _ n
  case twoSteps => exact (Nat.mod_mul_mod (a * b) (rinv w n) n).symm

/-! ### The results of MODRED, MODMUL and MONTMUL -/

/-- A well-formed command's destinations name registers (30_encoding.md R70). -/
theorem namesReg_of_mem_dests {i : Instr} (hwf : i.wf = true) {r : RegIdx} (hr : r ∈ i.dests) : namesReg r = true :=
  List.all_eq_true.1 (Bool.and_eq_true_iff.1 hwf).1 r hr

/-- MODRED has the destination and the sources of GCD's format (30_encoding.md R70). -/
theorem wf_modred {rd rs1 rs2 : RegIdx} (hd : namesReg rd = true) (h1 : namesReg rs1 = true)
    (h2 : namesReg rs2 = true) : (Instr.modred rd rs1 rs2).wf = true :=
  wf_gcd hd h1 h2

/-- The result of MODRED for a non-zero modulus is the write of the residue (42_modmul.md R93). -/
theorem execResult_modred {rd rs1 rs2 : RegIdx} (hwf : (Instr.modred rd rs1 rs2).wf = true) {l : Latch}
    (hn : l.rs2 ≠ 0) (w : Nat) : execResult (.modred rd rs1 rs2) l w = .commit [(rd, l.rs1 % l.rs2)] :=
  (if_pos hwf).trans (Result.withModulus_pos hn _)

/-- The result of MODMUL for a non-zero modulus is the write of the exact product reduced (42_modmul.md R95). -/
theorem execResult_modmul {rd rs1 rs2 rs3 : RegIdx} (hwf : (Instr.modmul rd rs1 rs2 rs3).wf = true) {l : Latch}
    (hn : l.rs3x ≠ 0) (w : Nat) :
    execResult (.modmul rd rs1 rs2 rs3) l w = .commit [(rd, l.rs1 * l.rs2 % l.rs3x)] :=
  (if_pos hwf).trans (Result.withModulus_pos hn _)

/-- The result of MONTMUL for a non-zero modulus: EVENMOD where it is even, the write of the Montgomery product where
it is odd (42_modmul.md R98). -/
theorem execResult_montmul {rd rs1 rs2 rs3 : RegIdx} (hwf : (Instr.montmul rd rs1 rs2 rs3).wf = true) {l : Latch}
    (hn : l.rs3x ≠ 0) (w : Nat) :
    execResult (.montmul rd rs1 rs2 rs3) l w =
      if l.rs3x % 2 = 0 then .error .evenmod else .commit [(rd, l.rs1 * l.rs2 * rinv w l.rs3x % l.rs3x)] :=
  (if_pos hwf).trans (Result.withModulus_pos hn _)

/-- Settles O21: the result is one write, of the residue. -/
theorem modredWritesTheResidue : Obligations.ModredWritesTheResidue := by
  unfold Obligations.ModredWritesTheResidue
  intro s rd rs1 rs2 hd h1 h2 hn
  exact exec_commitsTo_withDest hd (execResult_modred (wf_modred hd h1 h2) hn _)

/-- Settles O22: the result is one write, of the exact product reduced. -/
theorem modmulWritesTheExactProduct : Obligations.ModmulWritesTheExactProduct := by
  unfold Obligations.ModmulWritesTheExactProduct
  intro s rd rs1 rs2 rs3 hwf hn
  have hd : namesReg rd = true := namesReg_of_mem_dests hwf (.head _)
  exact ⟨exec_commitsTo_withDest hd (execResult_modmul hwf hn _), Nat.mul_mod ..⟩

/-- Settles O24: the result is one write, of the product times Rinv reduced, and the radix takes Rinv away again. -/
theorem montmulWritesTheMontgomeryProduct : Obligations.MontmulWritesTheMontgomeryProduct := by
  unfold Obligations.MontmulWritesTheMontgomeryProduct
  intro s rd rs1 rs2 rs3 hwf hodd
  have hn : s.latch.rs3x ≠ 0 := by omega
  have hd : namesReg rd = true := namesReg_of_mem_dests hwf (.head _)
  have hres := (execResult_montmul hwf hn s.width).trans (if_neg (by omega))
  exact ⟨_, rfl, Nat.mod_lt _ (Nat.pos_of_ne_zero hn), mul_rinv_mod_mul_two_pow_modEq hodd s.width _,
    exec_commitsTo_withDest hd hres⟩

end Sys2Proof.Machine
end

section
/-! The modular exponentiation statement: the result of MODEXP. -/

namespace Sys2Proof.Machine

/-- The result of MODEXP for a non-zero modulus is the write of the exact power reduced (43_modexp.md R103). -/
theorem execResult_modexp {rd rs1 rs2 rs3 : RegIdx} (hwf : (Instr.modexp rd rs1 rs2 rs3).wf = true) {l : Latch}
    (hn : l.rs3x ≠ 0) (w : Nat) :
    execResult (.modexp rd rs1 rs2 rs3) l w = .commit [(rd, l.rs1 ^ l.rs2 % l.rs3x)] := by
  rw [← modexp_eq]
  exact (if_pos hwf).trans (Result.withModulus_pos hn _)

/-- Settles O27: the result is one write, of square-and-multiply's value, which is the exact power reduced. -/
theorem modexpWritesTheExactPower : Obligations.ModexpWritesTheExactPower := by
  unfold Obligations.ModexpWritesTheExactPower
  intro s rd rs1 rs2 rs3 hwf hn
  have hd : namesReg rd = true := namesReg_of_mem_dests hwf (.head _)
  exact exec_commitsTo_withDest hd (execResult_modexp hwf hn _)

end Sys2Proof.Machine
end

section
/-! The RSA cipher statements: the results of RSAENC and RSADEC, the result of an issued command, and RSA on a block
below KN. -/

namespace Sys2Proof.Machine

/-! ### The computation of RSAENC and RSADEC -/

/-- A block below the modulus: the write of the exact power reduced (44_rsa_cipher.md R108, R110). -/
theorem rsaResult_of_lt {block n : Nat} (h : block < n) (rd : RegIdx) (exponent : Nat) :
    rsaResult rd block exponent n = .commit [(rd, block ^ exponent % n)] := by
  rw [← modexp_eq]
  exact (Result.withModulus_pos (Nat.ne_zero_of_lt h) _).trans (if_neg (Nat.not_le.2 h))

/-- A block not below a non-zero modulus: RANGE (44_rsa_cipher.md R108, R110). -/
theorem rsaResult_of_le {block n : Nat} (hn : n ≠ 0) (h : n ≤ block) (rd : RegIdx) (exponent : Nat) :
    rsaResult rd block exponent n = .error .range :=
  (Result.withModulus_pos hn _).trans (if_pos h)

/-- RSAENC and RSADEC have the same fields, so this is the well-formedness of both (30_encoding.md R70). -/
theorem wf_rsaenc {rd rs1 : RegIdx} (hd : namesReg rd = true) (h1 : namesReg rs1 = true) :
    (Instr.rsaenc rd rs1).wf = true := by
  simp [Instr.wf, Instr.dests, Instr.sources, hd, h1]

theorem wf_rsadec {rd rs1 : RegIdx} (hd : namesReg rd = true) (h1 : namesReg rs1 = true) :
    (Instr.rsadec rd rs1).wf = true :=
  wf_rsaenc hd h1

/-- RSAENC takes its exponent from the latched KE (44_rsa_cipher.md R108). -/
theorem execResult_rsaenc {rd rs1 : RegIdx} (hwf : (Instr.rsaenc rd rs1).wf = true) (l : Latch) (w : Nat) :
    execResult (.rsaenc rd rs1) l w = rsaResult rd l.rs1 l.ke l.kn :=
  if_pos hwf

/-- RSADEC takes its exponent from the latched KD (44_rsa_cipher.md R110). -/
theorem execResult_rsadec {rd rs1 : RegIdx} (hwf : (Instr.rsadec rd rs1).wf = true) (l : Latch) (w : Nat) :
    execResult (.rsadec rd rs1) l w = rsaResult rd l.rs1 l.kd l.kn :=
  if_pos hwf

/-- A command whose result is the shared computation commits the power of a block below the modulus, and reports RANGE
for a block not below a non-zero modulus. -/
theorem exec_of_rsaResult {i : Instr} {s : State} {rd : RegIdx} {block exponent n : Nat} (hd : namesReg rd = true)
    (hres : execResult i s.latch s.width = rsaResult rd block exponent n) :
    (block < n → s.CommitsTo (exec i s) (s.withDest rd (block ^ exponent % n))) ∧
    (n ≠ 0 → n ≤ block → exec i s = .next (s.doneWith .range)) := by
  constructor
  · intro hlt
    exact exec_commitsTo_withDest hd (hres.trans (rsaResult_of_lt hlt rd exponent))
  · intro hn hle
    rw [exec_eq, hres, rsaResult_of_le hn hle, State.complete_error]

/-- Settles O28: the result is the shared computation, with the latched KE. -/
theorem rsaencEncryptsOrReportsRange : Obligations.RsaencEncryptsOrReportsRange := by
  unfold Obligations.RsaencEncryptsOrReportsRange
  intro s rd rs1 hd h1
  exact exec_of_rsaResult hd (execResult_rsaenc (wf_rsaenc hd h1) _ _)

/-- Settles O29: the result is the shared computation, with the latched KD. -/
theorem rsadecDecryptsOrReportsRange : Obligations.RsadecDecryptsOrReportsRange := by
  unfold Obligations.RsadecDecryptsOrReportsRange
  intro s rd rs1 hd h1
  exact exec_of_rsaResult hd (execResult_rsadec (wf_rsadec hd h1) _ _)

/-! ### The result of an issued command -/

/-- The result of a command that is issued on the state: its operands are the registers that acceptance latches
(10_state.md R37, R38). -/
def State.issuedResult (s : State) (i : Instr) : Result := execResult i (s.latchOf (encode i)) s.width

/-- The Engine completes an accepted command with its issued result (10_state.md R38). -/
theorem engineTurn_accept_encode (s : State) {i : Instr} (hwf : i.wf = true) :
    engineTurn (s.accept (encode i)) = .next ((s.accept (encode i)).complete (s.issuedResult i)) :=
  (engineTurn_of_decode rfl (by simpa using decode_encode hwf)).trans (exec_eq i _)

/-- An issued MODEXP writes the power of the registers it names (43_modexp.md R103). -/
theorem State.issuedResult_modexp (s : State) {rd rs1 rs2 rs3 : RegIdx}
    (hwf : (Instr.modexp rd rs1 rs2 rs3).wf = true) (hn : s.reg rs3 ≠ 0) :
    s.issuedResult (.modexp rd rs1 rs2 rs3) = .commit [(rd, s.reg rs1 ^ s.reg rs2 % s.reg rs3)] := by
  have h1 : (s.latchOf (encode (.modexp rd rs1 rs2 rs3))).rs1 = s.reg rs1 :=
    (s.latchOf_encode_val hwf (f := .rs1) (.tail _ (.head _))).trans (congrArg s.reg (of_encodeFields ..))
  have h2 : (s.latchOf (encode (.modexp rd rs1 rs2 rs3))).rs2 = s.reg rs2 :=
    (s.latchOf_encode_val hwf (f := .rs2) (.tail _ (.tail _ (.head _)))).trans (congrArg s.reg (of_encodeFields ..))
  have h3 : (s.latchOf (encode (.modexp rd rs1 rs2 rs3))).rs3x = s.reg rs3 :=
    (s.latchOf_encode_val hwf (f := .rs3x) (.tail _ (.tail _ (.tail _ (.head _))))).trans
      (congrArg s.reg (of_encodeFields ..))
  rw [State.issuedResult, execResult_modexp hwf (by rwa [h3]), h1, h2, h3]

/-- An issued RSAENC of a block below KN writes its power by KE (44_rsa_cipher.md R108). -/
theorem State.issuedResult_rsaenc (s : State) {rd rs1 : RegIdx} (hwf : (Instr.rsaenc rd rs1).wf = true)
    (hlt : s.reg rs1 < s.reg regKN) :
    s.issuedResult (.rsaenc rd rs1) = .commit [(rd, s.reg rs1 ^ s.reg regKE % s.reg regKN)] := by
  have h1 : (s.latchOf (encode (.rsaenc rd rs1))).rs1 = s.reg rs1 :=
    (s.latchOf_encode_val hwf (f := .rs1) (.tail _ (.head _))).trans (congrArg s.reg (of_encodeFields ..))
  rw [State.issuedResult, execResult_rsaenc hwf, h1, State.latchOf_ke, State.latchOf_kn, rsaResult_of_lt hlt]

/-- An issued RSADEC of a block below KN writes its power by KD (44_rsa_cipher.md R110). -/
theorem State.issuedResult_rsadec (s : State) {rd rs1 : RegIdx} (hwf : (Instr.rsadec rd rs1).wf = true)
    (hlt : s.reg rs1 < s.reg regKN) :
    s.issuedResult (.rsadec rd rs1) = .commit [(rd, s.reg rs1 ^ s.reg regKD % s.reg regKN)] := by
  have h1 : (s.latchOf (encode (.rsadec rd rs1))).rs1 = s.reg rs1 :=
    (s.latchOf_encode_val hwf (f := .rs1) (.tail _ (.head _))).trans (congrArg s.reg (of_encodeFields ..))
  rw [State.issuedResult, execResult_rsadec hwf, h1, State.latchOf_kd, State.latchOf_kn, rsaResult_of_lt hlt]

/-- Two commands with the same writes, issued on the same state, leave the same register file. -/
theorem engineTurn_accept_encode_x_eq {s : State} {i j : Instr} {ws : List (RegIdx × Nat)} (hi : i.wf = true)
    (hj : j.wf = true) (hires : s.issuedResult i = .commit ws) (hjres : s.issuedResult j = .commit ws) :
    ∃ t u, engineTurn (s.accept (encode i)) = .next t ∧ engineTurn (s.accept (encode j)) = .next u ∧
      t.errcode = .ok ∧ t.x = u.x :=
  ⟨_, _, engineTurn_accept_encode s hi, engineTurn_accept_encode s hj, by simp [hires], by simp [hires, hjres]⟩

/-- Settles O30: RSAENC and RSADEC have the writes of MODEXP with KE and KN, and with KD and KN. -/
theorem rsaCommandsAreModexpWithTheKeys : Obligations.RsaCommandsAreModexpWithTheKeys := by
  unfold Obligations.RsaCommandsAreModexpWithTheKeys
  intro s rd rs1 _ hd h1 hpos hlt
  have hn : s.reg regKN ≠ 0 := Nat.one_le_iff_ne_zero.1 hpos
  have hmod : ∀ rs2, namesReg rs2 = true → (Instr.modexp rd rs1 rs2 regKN).wf = true := fun rs2 h2 => by
    simp [Instr.wf, Instr.dests, Instr.sources, hd, h1, h2, show namesReg regKN = true by decide]
  have hke := hmod regKE (by decide)
  have hkd := hmod regKD (by decide)
  have henc := wf_rsaenc hd h1
  have hdec := wf_rsadec hd h1
  exact ⟨engineTurn_accept_encode_x_eq henc hke (s.issuedResult_rsaenc henc hlt) (s.issuedResult_modexp hke hn),
    engineTurn_accept_encode_x_eq hdec hkd (s.issuedResult_rsadec hdec hlt) (s.issuedResult_modexp hkd hn)⟩

/-! ### RSA on a block below KN -/

/-- Fermat's little theorem for every base: an exponent that is 1 modulo p - 1, and not 0, gives the base back modulo
a prime p. -/
theorem pow_sub_one_mul_add_one_modEq {p : Nat} (hp : p.Prime) (a j : Nat) : a ^ ((p - 1) * j + 1) ≡ a [MOD p] := by
  by_cases h : p ∣ a
  · have ha : a ≡ 0 [MOD p] := Nat.modEq_zero_iff_dvd.2 h
    have hpow : a ^ ((p - 1) * j + 1) ≡ 0 [MOD p] := Nat.modEq_zero_iff_dvd.2 (dvd_pow h (Nat.succ_ne_zero _))
    exact hpow.trans ha.symm
  · have hone : a ^ (p - 1) ≡ 1 [MOD p] :=
      Nat.ModEq.pow_card_sub_one_eq_one hp ((hp.coprime_iff_not_dvd.2 h).symm)
    calc a ^ ((p - 1) * j + 1) = (a ^ (p - 1)) ^ j * a := by rw [pow_succ, pow_mul]
      _ ≡ 1 ^ j * a [MOD p] := (hone.pow j).mul_right a
      _ = a := by rw [one_pow, one_mul]

/-- RSA is correct: an exponent that is 1 modulo (p - 1) * (q - 1) gives every block back modulo p * q, also a block
that p or q divides (44_rsa_cipher.md R112). -/
theorem pow_modEq_self_of_primes {p q k : Nat} (hp : p.Prime) (hq : q.Prime) (hne : p ≠ q)
    (hk : k % ((p - 1) * (q - 1)) = 1) (a : Nat) : a ^ k ≡ a [MOD p * q] := by
  obtain ⟨j, rfl⟩ : ∃ j, k = (p - 1) * (q - 1) * j + 1 :=
    ⟨k / ((p - 1) * (q - 1)), (Nat.div_add_mod k _).symm.trans (congrArg _ hk)⟩
  have hmodp : a ^ ((p - 1) * (q - 1) * j + 1) ≡ a [MOD p] := by
    rw [mul_assoc]
    exact pow_sub_one_mul_add_one_modEq hp a _
  have hmodq : a ^ ((p - 1) * (q - 1) * j + 1) ≡ a [MOD q] := by
    rw [mul_comm (p - 1), mul_assoc]
    exact pow_sub_one_mul_add_one_modEq hq a _
  exact (Nat.modEq_and_modEq_iff_modEq_mul ((Nat.coprime_primes hp hq).2 hne)).1 ⟨hmodp, hmodq⟩

/-- Decryption undoes encryption on a block below the modulus (44_rsa_cipher.md R112). -/
theorem rsa_decrypt_encrypt {p q e d block : Nat} (hp : p.Prime) (hq : q.Prime) (hne : p ≠ q)
    (hed : e * d % ((p - 1) * (q - 1)) = 1) (hlt : block < p * q) :
    (block ^ e % (p * q)) ^ d % (p * q) = block := by
  rw [← Nat.pow_mod, ← pow_mul]
  exact Nat.mod_eq_of_modEq (pow_modEq_self_of_primes hp hq hne hed block) hlt

/-- Two steps accept and complete an issued command with its issued result (10_state.md R37, R38; log entry 5). -/
theorem stepN_two_of_issue {s : State} {i : Instr} {rest : List HostOp} (hwf : i.wf = true) (hb : s.busy = false)
    (hs : s.schedule = []) (hops : s.hostOps = issue i :: rest) :
    stepN 2 s = (({ s with hostOps := rest } : State).accept (encode i)).complete (s.issuedResult i) := by
  obtain ⟨t, haccept, rfl, hcomplete⟩ := issuedCommandRuns s i rest hwf hb hs hops
  rw [exec_eq] at hcomplete
  simp only [stepN, haccept, hcomplete]
  rfl

/-- What two steps leave of an issued command with one write: the block is idle again with the code OK, the Host is at
its next line, and only the destination has changed. -/
theorem stepN_two_of_issue_commit_one {s : State} {i : Instr} {rest : List HostOp} {rd : RegIdx} {v : Nat}
    (hwf : i.wf = true) (hb : s.busy = false) (hs : s.schedule = []) (hops : s.hostOps = issue i :: rest)
    (hd : namesReg rd = true) (hres : s.issuedResult i = .commit [(rd, v)]) :
    (stepN 2 s).busy = false ∧ (stepN 2 s).schedule = [] ∧ (stepN 2 s).hostOps = rest ∧
      (stepN 2 s).errcode = .ok ∧ ∀ r, (stepN 2 s).reg r = s.withDest rd v r := by
  rw [stepN_two_of_issue hwf hb hs hops, hres]
  exact ⟨rfl, hs, rfl, rfl, State.reg_complete_commit_one hd _ v⟩

/-- Settles O31: the first two steps leave the power by KE in rd, KN and KD as they were, and the idle block that RSADEC
is then issued on; the next two leave the power of that by KD, which is the block. -/
theorem rsaRoundTripRestoresTheBlock : Obligations.RsaRoundTripRestoresTheBlock := by
  unfold Obligations.RsaRoundTripRestoresTheBlock
  intro s p q rd rs1 rd2 rest hp hq hne hb hs hops hd hdkn hdkd h1 hd2 hkn hed hlt
  rw [← hkn] at hlt
  have henc := wf_rsaenc hd h1
  obtain ⟨hb', hs', hops', -, hreg⟩ :=
    stepN_two_of_issue_commit_one henc hb hs hops hd (s.issuedResult_rsaenc henc hlt)
  rw [stepN_add 2 2 s]
  generalize stepN 2 s = t at hb' hs' hops' hreg ⊢
  have hcipher : t.reg rd = s.reg rs1 ^ s.reg regKE % s.reg regKN := (hreg rd).trans (if_pos rfl)
  have htkn : t.reg regKN = s.reg regKN := (hreg regKN).trans (if_neg hdkn.symm)
  have htkd : t.reg regKD = s.reg regKD := (hreg regKD).trans (if_neg hdkd.symm)
  have hbelow : t.reg rd < t.reg regKN := by
    rw [hcipher, htkn]
    exact Nat.mod_lt _ (Nat.zero_lt_of_lt hlt)
  have hplain : t.reg rd ^ t.reg regKD % t.reg regKN = s.reg rs1 := by
    rw [hcipher, htkn, htkd, hkn]
    exact rsa_decrypt_encrypt hp hq hne hed (hkn ▸ hlt)
  have hdec := wf_rsadec hd2 hd
  obtain ⟨hb'', -, hops'', hok, hreg'⟩ :=
    stepN_two_of_issue_commit_one hdec hb' hs' hops' hd2 (t.issuedResult_rsadec hdec hbelow)
  exact ⟨(hreg' rd2).trans ((if_pos rfl).trans hplain), hok, hb'', hops''⟩

end Sys2Proof.Machine
end

section
/-! The exception statements: ILLEGAL words, the errors of each command, the interrupt, and a completion that meets a
Host write. -/

namespace Sys2Proof.Machine

/-! ### Every step answers -/

/-- Settles O9: a step answers the state after its turn. -/
theorem everyStepAnswersANextState : Obligations.EveryStepAnswersANextState := by
  unfold Obligations.EveryStepAnswersANextState
  intro s
  exact ⟨s.afterStep, step_eq s⟩

/-! ### ILLEGAL words -/

/-- A write of CMD while idle is acceptance (10_state.md R30). -/
theorem State.writeLoc_cmd_of_idle {s : State} (hb : s.busy = false) (v : Word) : s.writeLoc .cmd v = s.accept v := by
  simp [State.writeLoc, State.writeCmd, hb]

/-- A write of CMD while a command runs is dropped and sets OVR (70_reset_and_hazards.md R171). -/
theorem State.writeLoc_cmd_of_busy {s : State} (hb : s.busy = true) (v : Word) :
    s.writeLoc .cmd v = { s with ovr := true } := by
  simp [State.writeLoc, State.writeCmd, hb]

/-- A latched word that is no command completes as ILLEGAL (60_exceptions.md R142). -/
theorem engineTurn_of_decode_error {s : State} {e : DecodeError} (hb : s.busy = true)
    (hd : decode s.latch.word = .error e) : engineTurn s = .next (s.doneWith .illegal) := by
  simp [engineTurn, hb, hd, State.complete_error]

/-- The decoder answers an error on a word that the opcode table does not hold (30_encoding.md R72). -/
theorem exists_decode_eq_error {w : Word} (h : ¬ Claims.Legal w) : ∃ e, decode w = .error e := by
  cases hd : decode w with
  | ok i => exact absurd ((decodableWordsAreTheTables w).1 ⟨i, hd⟩) h
  | error e => exact ⟨e, rfl⟩

/-- Settles O5: the write is acceptance, and the Engine's turn finds no command in the latched word. -/
theorem illegalWordIsAcceptedThenReported : Obligations.IllegalWordIsAcceptedThenReported := by
  unfold Obligations.IllegalWordIsAcceptedThenReported
  intro s w hb hillegal
  obtain ⟨e, hd⟩ := exists_decode_eq_error hillegal
  have haccept : s.hostWrite 32 0x010 w = s.accept w := by
    rw [State.hostWrite_of_locate (l := .cmd) rfl, State.writeLoc_cmd_of_idle hb]
  rw [haccept]
  exact ⟨rfl, rfl, _, engineTurn_of_decode_error rfl (by simpa using hd), rfl, rfl, rfl, rfl, rfl⟩

/-! ### The modulus check -/

/-- The modulus of a command that has one, among its latched operands (60_exceptions.md R143). -/
def modulusOf (i : Instr) (l : Latch) : Option Nat :=
  match i with
  | .nop | .mov _ _ | .gcd _ _ _ | .xgcd _ _ _ _ _ => none
  | .inv _ _ _ | .modred _ _ _ => some l.rs2
  | .modmul _ _ _ _ | .montmul _ _ _ _ | .modexp _ _ _ _ => some l.rs3x
  | .rsaenc _ _ | .rsadec _ _ => some l.kn

/-- The modulus check comes before every other check of a well-formed command (60_exceptions.md R143, R148). -/
theorem execResult_of_modulus_zero {i : Instr} (hwf : i.wf = true) {l : Latch}
    (hzero : modulusOf i l = some 0) (w : Nat) : execResult i l w = .error .modzero := by
  cases i with
  | nop | mov | gcd | xgcd => exact nomatch hzero
  | inv | modred | modmul | montmul | modexp | rsaenc | rsadec =>
    exact (if_pos hwf).trans (if_pos (Option.some.inj hzero))

theorem exec_of_modulus_zero {i : Instr} (hwf : i.wf = true) {s : State}
    (hzero : modulusOf i s.latch = some 0) : exec i s = .next (s.doneWith .modzero) := by
  rw [exec_eq, execResult_of_modulus_zero hwf hzero, State.complete_error]

theorem wf_modmul {rd rs1 rs2 rs3 : RegIdx} (hd : namesReg rd = true) (h1 : namesReg rs1 = true)
    (h2 : namesReg rs2 = true) (h3 : namesReg rs3 = true) : (Instr.modmul rd rs1 rs2 rs3).wf = true := by
  simp [Instr.wf, Instr.dests, Instr.sources, hd, h1, h2, h3]

/-- MONTMUL has the destination and the sources of MODMUL's format (30_encoding.md R70). -/
theorem wf_montmul {rd rs1 rs2 rs3 : RegIdx} (hd : namesReg rd = true) (h1 : namesReg rs1 = true)
    (h2 : namesReg rs2 = true) (h3 : namesReg rs3 = true) : (Instr.montmul rd rs1 rs2 rs3).wf = true :=
  wf_modmul hd h1 h2 h3

/-- MODEXP has the destination and the sources of MODMUL's format (30_encoding.md R70). -/
theorem wf_modexp {rd rs1 rs2 rs3 : RegIdx} (hd : namesReg rd = true) (h1 : namesReg rs1 = true)
    (h2 : namesReg rs2 = true) (h3 : namesReg rs3 = true) : (Instr.modexp rd rs1 rs2 rs3).wf = true :=
  wf_modmul hd h1 h2 h3

/-- Settles O20: each of the commands is well formed and has the modulus that its clause names. -/
theorem zeroModulusIsReported : Obligations.ZeroModulusIsReported := by
  unfold Obligations.ZeroModulusIsReported
  intro s rd rs1 rs2 rs3 hd h1 h2 h3
  refine ⟨fun hn => ⟨?inv, ?modred⟩, fun hn => ⟨?modmul, ?montmul, ?modexp⟩, fun hn => ⟨?rsaenc, ?rsadec⟩⟩
  case inv => exact exec_of_modulus_zero (wf_inv hd h1 h2) (congrArg some hn)
  case modred => exact exec_of_modulus_zero (wf_modred hd h1 h2) (congrArg some hn)
  case modmul => exact exec_of_modulus_zero (wf_modmul hd h1 h2 h3) (congrArg some hn)
  case montmul => exact exec_of_modulus_zero (wf_montmul hd h1 h2 h3) (congrArg some hn)
  case modexp => exact exec_of_modulus_zero (wf_modexp hd h1 h2 h3) (congrArg some hn)
  case rsaenc => exact exec_of_modulus_zero (wf_rsaenc hd h1) (congrArg some hn)
  case rsadec => exact exec_of_modulus_zero (wf_rsadec hd h1) (congrArg some hn)

/-! ### EVENMOD -/

/-- A number with an inverse modulo an even number is odd (60_exceptions.md R144). -/
theorem mul_mod_ne_one_mod_of_even {a n : Nat} (ha : Even a) (hn : Even n) (v : Nat) : a * v % n ≠ 1 % n := by
  intro h
  have hmod : a * v ≡ 1 [MOD 2] := Nat.ModEq.of_dvd hn.two_dvd h
  have heven : a * v ≡ 0 [MOD 2] := (ha.mul_right v).two_dvd.modEq_zero_nat
  exact absurd (heven.symm.trans hmod) (by decide)

/-- Settles O25: the result is the error EVENMOD, and the radix is even. -/
theorem evenMontgomeryModulusIsReported : Obligations.EvenMontgomeryModulusIsReported := by
  unfold Obligations.EvenMontgomeryModulusIsReported
  intro s rd rs1 rs2 rs3 hwf hn heven
  constructor
  · rw [exec_eq, execResult_montmul hwf hn, if_pos heven, State.complete_error]
  · intro hk v
    have hw : s.width ≠ 0 := by unfold State.width; omega
    exact mul_mod_ne_one_mod_of_even (even_two.pow_of_ne_zero hw) (Nat.even_iff.2 heven) v

/-! ### The errors of each command -/

/-- A computation behind the modulus check reports MODZERO or its own code. -/
theorem Result.code_withModulus_mem {codes : List ErrCode} {r : Result} (hzero : .modzero ∈ codes)
    (hr : r.code ∈ codes) (n : Nat) : (Result.withModulus n r).code ∈ codes := by
  unfold Result.withModulus
  split
  · exact hzero
  · exact hr

/-- Every command can report ILLEGAL (60_exceptions.md R149). -/
theorem illegal_mem_possibleCodes (i : Instr) : .illegal ∈ Claims.possibleCodes i := by
  cases i <;> exact .tail _ (.head _)

/-- The result of a command reports a code of the command's row (60_exceptions.md R149). -/
theorem code_execResult_mem_possibleCodes (i : Instr) (l : Latch) (w : Nat) :
    (execResult i l w).code ∈ Claims.possibleCodes i := by
  cases hwf : i.wf with
  | false =>
    rw [execResult_illegal l w hwf]
    exact illegal_mem_possibleCodes i
  | true =>
    rw [execResult.eq_def, if_pos hwf]
    cases i with
    | nop | mov | gcd | xgcd => exact .head _
    | modred | modmul | modexp => exact Result.code_withModulus_mem (.tail _ (.tail _ (.head _))) (.head _) _
    | inv | montmul | rsaenc | rsadec =>
      apply Result.code_withModulus_mem (.tail _ (.tail _ (.head _)))
      split <;> simp

/-- Settles O33: a command completes with its result's code. -/
theorem commandsReportOnlyTheirListedErrors : Obligations.CommandsReportOnlyTheirListedErrors := by
  unfold Obligations.CommandsReportOnlyTheirListedErrors
  intro i s
  exact ⟨_, exec_eq i s, code_execResult_mem_possibleCodes i s.latch s.width⟩

/-! ### The interrupt -/

/-- A write of IRQ_PEND clears DONE_PEND by a 1 in bit 0 (10_state.md R33). -/
theorem State.writeLoc_irqPend (s : State) (v : Word) :
    s.writeLoc .irqPend v = { s with donePend := s.donePend && !v.getLsbD 0 } := by
  rw [State.writeLoc]
  cases v.getLsbD 0 with
  | false => rw [Bool.not_false, Bool.and_true]; rfl
  | true => rw [Bool.not_true, Bool.and_false]; rfl

/-- A write of CMD, accepted or dropped, leaves DONE_PEND (60_exceptions.md R150). -/
theorem State.writeLoc_cmd_donePend (s : State) (v : Word) : (s.writeLoc .cmd v).donePend = s.donePend := by
  cases hb : s.busy with
  | false => rw [State.writeLoc_cmd_of_idle hb, State.accept_donePend]
  | true => rw [State.writeLoc_cmd_of_busy hb]

/-- Settles O49: the writes and the read of the interrupt registers, and the two places that could touch DONE_PEND. -/
theorem interruptEnableAndAcknowledge : Obligations.InterruptEnableAndAcknowledge := by
  unfold Obligations.InterruptEnableAndAcknowledge
  intro s v
  refine ⟨?output, ?enable, ?acknowledge, ?read, ?acceptance, fun t hb ht => ?completion⟩
  case output => simp [State.irq]
  case enable => exact State.hostWrite_of_locate (l := .irqEn) rfl s v
  case acknowledge => rw [State.hostWrite_of_locate (l := .irqPend) rfl, State.writeLoc_irqPend]
  case read =>
    rw [← bitWord_eq_ite]
    exact State.hostRead_eq_observe (l := .irqPend) rfl rfl
  case acceptance => rw [State.hostWrite_of_locate (l := .cmd) rfl, State.writeLoc_cmd_donePend]
  case completion =>
    obtain ⟨r, hr⟩ := exists_engineTurn_eq_complete hb
    obtain rfl : s.complete r = t := Host.Outcome.next.inj (hr.symm.trans ht)
    rfl

/-! ### A completion and a Host write in either order -/

theorem exists_afterEngine_eq_complete {s : State} (hb : s.busy = true) : ∃ r, s.afterEngine = s.complete r := by
  obtain ⟨r, hr⟩ := exists_engineTurn_eq_complete hb
  exact ⟨r, Host.Outcome.next.inj ((engineTurn_eq s).symm.trans hr)⟩

theorem State.afterEngine_of_idle {s : State} (hb : s.busy = false) : s.afterEngine = s := by
  simp [State.afterEngine, hb]

/-- A write neither reads nor changes the turns still to be taken. -/
theorem State.writeLoc_schedule_update (s : State) (l : Location) (v : Word) (turns : List Turn) :
    ({ s with schedule := turns } : State).writeLoc l v = { s.writeLoc l v with schedule := turns } := by
  cases l with
  | id | param | status | reserved | irqEn => rfl
  | ctrl =>
    simp only [State.writeLoc, State.writeCtrl]
    split
    · rfl
    · split <;> rfl
  | cmd =>
    simp only [State.writeLoc, State.writeCmd]
    split <;> rfl
  | irqPend =>
    simp only [State.writeLoc]
    split <;> rfl
  | bigWord r i =>
    simp only [State.writeLoc, State.writeBigWord]
    split
    · rfl
    · split <;> rfl

/-- The state of a race: the Host's next line is a write, and these turns are left to be taken (60_exceptions.md
R152). -/
def State.racing (s : State) (off : Nat) (v : Word) (rest : List HostOp) (turns : List Turn) : State :=
  { s with hostOps := .write 32 off v :: rest, schedule := turns }

/-- The state with the race's line and turns taken, before either has changed the block. -/
def State.raced (s : State) (rest : List HostOp) : State := { s with hostOps := rest, schedule := [] }

/-- The completion before the write (60_exceptions.md R152). -/
theorem stepN_two_racing_engine_host {s : State} {off : Nat} {l : Location} (hb : s.busy = true)
    (hl : locate off = some l) (v : Word) (rest : List HostOp) :
    ∃ r, stepN 2 (s.racing off v rest [.engine, .host]) = ((s.raced rest).complete r).writeLoc l v := by
  obtain ⟨r, hr⟩ := exists_afterEngine_eq_complete (s := s.racing off v rest [.host]) hb
  have hengine : (s.racing off v rest [.engine, .host]).afterStep = (s.racing off v rest [.host]).complete r := hr
  refine ⟨r, ?_⟩
  rw [stepN_succ, stepN_succ, stepN_zero, hengine]
  exact State.hostTurn_hostWr (s := (s.racing off v rest []).complete r) rfl hl

/-- The write before the Engine's turn (60_exceptions.md R152). -/
theorem stepN_two_racing_host_engine {off : Nat} {l : Location} (hl : locate off = some l) (s : State) (v : Word)
    (rest : List HostOp) :
    stepN 2 (s.racing off v rest [.host, .engine]) = ((s.raced rest).writeLoc l v).afterEngine := by
  have hhost : (s.racing off v rest [.host, .engine]).afterStep =
      { (s.raced rest).writeLoc l v with schedule := [.engine] } :=
    (State.hostTurn_hostWr (s := s.racing off v rest [.engine]) rfl hl).trans
      (State.writeLoc_schedule_update (s.raced rest) l v [.engine])
  rw [stepN_succ, stepN_succ, stepN_zero, hhost]
  exact congrArg State.afterEngine ((s.raced rest).writeLoc_schedule_update l v []).symm

/-- The race with an acknowledgement: the later of the two decides DONE_PEND. -/
theorem race_irqPend {s : State} {v : Word} (hb : s.busy = true) (hv : v.getLsbD 0 = true) (rest : List HostOp) :
    (stepN 2 (s.racing 0x01C v rest [.engine, .host])).donePend = false ∧
      (stepN 2 (s.racing 0x01C v rest [.host, .engine])).donePend = true := by
  constructor
  · obtain ⟨r, hr⟩ := stepN_two_racing_engine_host (off := 0x01C) (l := .irqPend) hb rfl v rest
    simp [hr, State.writeLoc_irqPend, hv]
  · obtain ⟨r, hr⟩ := exists_afterEngine_eq_complete (s := (s.raced rest).writeLoc .irqPend v)
      (by rw [State.writeLoc_irqPend]; exact hb)
    rw [stepN_two_racing_host_engine (l := .irqPend) rfl, hr, State.complete_donePend]

/-- The race with a soft reset: it undoes an earlier completion, and leaves a later Engine turn nothing to complete. -/
theorem race_srst {s : State} {v : Word} (hb : s.busy = true) (hv : v.getLsbD 0 = true) (rest : List HostOp) :
    (stepN 2 (s.racing 0x008 v rest [.engine, .host])).BlockIsReset ∧
      (stepN 2 (s.racing 0x008 v rest [.host, .engine])).BlockIsReset := by
  have hreset : ∀ t : State, t.writeLoc .ctrl v = t.blockReset := State.writeCtrl_of_srst hv
  constructor
  · obtain ⟨r, hr⟩ := stepN_two_racing_engine_host (off := 0x008) (l := .ctrl) hb rfl v rest
    rw [hr, hreset]
    exact State.blockIsReset_blockReset _
  · rw [stepN_two_racing_host_engine (l := .ctrl) rfl, hreset, State.afterEngine_of_idle rfl]
    exact State.blockIsReset_blockReset _

/-- The race with a command: it is accepted after the completion, and dropped before it. -/
theorem race_cmd {s : State} (hb : s.busy = true) (v : Word) (rest : List HostOp) :
    (∃ r, stepN 2 (s.racing 0x010 v rest [.engine, .host]) = ((s.raced rest).complete r).accept v) ∧
      ∃ r, stepN 2 (s.racing 0x010 v rest [.host, .engine]) =
        ({ s.raced rest with ovr := true } : State).complete r := by
  constructor
  · obtain ⟨r, hr⟩ := stepN_two_racing_engine_host (off := 0x010) (l := .cmd) hb rfl v rest
    exact ⟨r, hr.trans (State.writeLoc_cmd_of_idle rfl v)⟩
  · rw [stepN_two_racing_host_engine (l := .cmd) rfl, State.writeLoc_cmd_of_busy (s := s.raced rest) hb]
    exact exists_afterEngine_eq_complete (s := { s.raced rest with ovr := true }) hb

/-- Settles O57: the three races, each in both orders. -/
theorem completionRacesAHostWrite : Obligations.CompletionRacesAHostWrite := by
  unfold Obligations.CompletionRacesAHostWrite
  intro s v rest hb
  refine ⟨fun hv => race_irqPend hb hv rest, fun hv => race_srst hb hv rest, ?_⟩
  obtain ⟨⟨r, haccepted⟩, r', hdropped⟩ := race_cmd hb v rest
  unfold State.racing at haccepted hdropped
  rw [haccepted, hdropped]
  exact ⟨rfl, rfl, rfl, rfl, rfl⟩

end Sys2Proof.Machine
end

section
/-! The reset and hazard statements: commands on reset values, what abandons a command, accesses while a command runs,
and the Host that waits and follows the driver protocol. -/

namespace Sys2Proof.Machine

/-! ### Accesses while a command runs -/

/-- Settles O39: the offset locates CMD, and a write of CMD while busy is dropped. -/
theorem busyCmdWriteIsDropped : Obligations.BusyCmdWriteIsDropped := by
  unfold Obligations.BusyCmdWriteIsDropped
  intro s v hb
  rw [State.hostWrite_of_locate (l := .cmd) rfl, State.writeLoc_cmd_of_busy hb]

/-- A write of a word below K while a command runs is dropped and sets OVR (70_reset_and_hazards.md R172). -/
theorem State.writeLoc_bigWord_of_busy {s : State} {i : Nat} (hb : s.busy = true) (hi : i < s.nwords) (r : RegIdx)
    (v : Word) : s.writeLoc (.bigWord r i) v = { s with ovr := true } := by
  simp [State.writeLoc, State.writeBigWord, hb, hi]

/-- A read of a word below K while a command runs is a draw (70_reset_and_hazards.md R173). -/
theorem State.readLoc_bigWord_of_busy {s : State} {i : Nat} (hb : s.busy = true) (hi : i < s.nwords) (r : RegIdx) :
    s.readLoc (.bigWord r i) = (Config.busyRead s.draws, { s with draws := s.draws + 1 }) := by
  simp [State.readLoc, hb, hi]

/-- Settles O40: the offset locates word i of register r, and K decides between the two outcomes of its write. -/
theorem busyRegisterWriteIsDropped : Obligations.BusyRegisterWriteIsDropped := by
  unfold Obligations.BusyRegisterWriteIsDropped
  intro s r i v hb hr hi128
  have hl : locate (0x400 + 0x200 * r.toNat + 4 * i) = some (.bigWord r i) := locate_bigOffset hr hi128
  rw [State.hostWrite_of_locate hl]
  exact ⟨fun hi => State.writeLoc_bigWord_of_busy hb hi r v, fun hi => State.writeLoc_bigWord_of_le hi r v⟩

/-- Settles O41: the offset locates word i of register r, and K decides between the two outcomes of its read. -/
theorem busyRegisterReadIsADraw : Obligations.BusyRegisterReadIsADraw := by
  unfold Obligations.BusyRegisterReadIsADraw
  intro s r i hb hr hi128
  have hl : locate (0x400 + 0x200 * r.toNat + 4 * i) = some (.bigWord r i) := locate_bigOffset hr hi128
  refine ⟨fun hi => ?_, fun hi => State.hostRead_eq_observe hl (State.readLoc_bigWord_of_le hi r)⟩
  rw [State.hostRead_of_locate hl, State.readLoc_bigWord_of_busy hb hi]
  rfl

/-! ### Commands on reset values -/

/-- With every big register 0, acceptance latches 0 in the used fields of a well-formed command (10_state.md R37). -/
theorem State.latchOf_encode_val_eq_zero {s : State} (hzero : ∀ r, namesReg r = true → s.reg r = 0) {i : Instr}
    (hwf : i.wf = true) {f : Field} (hf : f ∈ i.op.format.fields) : (s.latchOf (encode i)).val f = 0 := by
  rw [State.latchOf_encode_val s hwf hf]
  exact hzero _ (List.all_eq_true.1 ((fields_encode_all_namesReg i).2 hwf) f hf)

/-- On registers that are 0, MOV and GCD write 0 (70_reset_and_hazards.md R170). -/
theorem State.exists_issuedResult_eq_write_zero {s : State} (hzero : ∀ r, namesReg r = true → s.reg r = 0) {i : Instr}
    (hwf : i.wf = true) (hop : i.op ∈ [Op.mov, Op.gcd]) :
    ∃ rd, namesReg rd = true ∧ s.issuedResult i = .commit [(rd, 0)] := by
  have hlatch := fun f => State.latchOf_encode_val_eq_zero hzero hwf (f := f)
  cases i with
  | mov rd rs1 =>
    have h1 : (s.latchOf (encode (.mov rd rs1))).rs1 = 0 := hlatch .rs1 (.tail _ (.head _))
    exact ⟨rd, namesReg_of_mem_dests hwf (.head _), by rw [State.issuedResult, execResult_mov hwf, h1]⟩
  | gcd rd rs1 rs2 =>
    have h1 : (s.latchOf (encode (.gcd rd rs1 rs2))).rs1 = 0 := hlatch .rs1 (.tail _ (.head _))
    have h2 : (s.latchOf (encode (.gcd rd rs1 rs2))).rs2 = 0 := hlatch .rs2 (.tail _ (.tail _ (.head _)))
    refine ⟨rd, namesReg_of_mem_dests hwf (.head _), ?_⟩
    rw [State.issuedResult, execResult_gcd hwf, h1, h2, Nat.gcd_self]
  | nop | xgcd | inv | modred | modmul | montmul | modexp | rsaenc | rsadec => simp [Instr.op] at hop

/-- On registers that are 0, XGCD writes (0, 1, 0) (70_reset_and_hazards.md R170). -/
theorem State.issuedResult_xgcd_of_zero {s : State} (hzero : ∀ r, namesReg r = true → s.reg r = 0) (hk : 1 ≤ s.nwords)
    {rd rx ry rs1 rs2 : RegIdx} (hwf : (Instr.xgcd rd rx ry rs1 rs2).wf = true) :
    s.issuedResult (.xgcd rd rx ry rs1 rs2) = .commit [(rd, 0), (rx, 1), (ry, 0)] := by
  have hlatch := fun f => State.latchOf_encode_val_eq_zero hzero hwf (f := f)
  have h1 : (s.latchOf (encode (.xgcd rd rx ry rs1 rs2))).rs1 = 0 := hlatch .rs1 (.tail _ (.head _))
  have h2 : (s.latchOf (encode (.xgcd rd rx ry rs1 rs2))).rs2 = 0 := hlatch .rs2 (.tail _ (.tail _ (.head _)))
  have hw : s.width ≠ 0 := by unfold State.width; omega
  have hone : tcW s.width 1 = 1 := by
    rw [tcW, Int.emod_eq_of_lt (by decide) (by exact_mod_cast Nat.one_lt_two_pow hw)]
    rfl
  rw [State.issuedResult, execResult_xgcd hwf, h1, h2, egcd_zero_right, hone]
  rfl

/-- On registers that are 0, the modulus of a command that has one is 0 (70_reset_and_hazards.md R170). -/
theorem State.modulusOf_latchOf_encode_of_zero {s : State} (hzero : ∀ r, namesReg r = true → s.reg r = 0) {i : Instr}
    (hwf : i.wf = true) (hop : i.op ∉ [Op.nop, Op.mov, Op.gcd, Op.xgcd]) :
    modulusOf i (s.latchOf (encode i)) = some 0 := by
  have hlatch := fun f => State.latchOf_encode_val_eq_zero hzero hwf (f := f)
  cases i with
  | nop | mov | gcd | xgcd => simp [Instr.op] at hop
  | inv | modred => exact congrArg some (hlatch .rs2 (.tail _ (.tail _ (.head _))))
  | modmul | montmul | modexp => exact congrArg some (hlatch .rs3x (.tail _ (.tail _ (.tail _ (.head _)))))
  | rsaenc | rsadec => exact congrArg some ((s.latchOf_kn _).trans (hzero regKN (by decide)))

/-- Settles O36: the Engine completes with the issued result, whose operands are all 0. -/
theorem commandsOnResetValues : Obligations.CommandsOnResetValues := by
  unfold Obligations.CommandsOnResetValues
  intro s _ hzero hk
  refine ⟨fun i hwf hop => ⟨_, engineTurn_accept_encode s hwf, ?zero⟩,
    fun rd rx ry rs1 rs2 hwf hdx hdy hxy => ⟨_, engineTurn_accept_encode s hwf, ?xgcd⟩,
    fun i hwf hop => ⟨_, engineTurn_accept_encode s hwf, ?modulus⟩⟩
  case zero =>
    obtain ⟨rd, hd, hres⟩ := State.exists_issuedResult_eq_write_zero hzero hwf hop
    have hsame : (s.setReg rd (s.reg rd)).x = s.x := congrArg State.x (s.setReg_reg_self hd)
    rw [hzero rd hd] at hsame
    rw [hres]
    exact ⟨rfl, hsame⟩
  case xgcd =>
    obtain ⟨hd, hx, hy⟩ := namesReg_dests_of_wf_xgcd hwf
    rw [State.issuedResult_xgcd_of_zero hzero hk hwf]
    refine ⟨rfl, ?_⟩
    simp [State.reg_complete_commit_three hd hx hy, hdx, hdy, hxy]
  case modulus =>
    have hres : s.issuedResult i = .error .modzero :=
      execResult_of_modulus_zero hwf (State.modulusOf_latchOf_encode_of_zero hzero hwf hop) _
    rw [hres]
    exact ⟨rfl, rfl⟩

/-! ### What ends a running command -/

/-- Everything a located write can do: accept a command, reset the block, or change registers and flags, without
touching the command in flight (10_state.md R24-R33). -/
theorem State.writeLoc_cases (s : State) (l : Location) (v : Word) :
    (l = .cmd ∧ s.busy = false ∧ s.writeLoc l v = s.accept v) ∨
    (l = .ctrl ∧ v.getLsbD 0 = true ∧ s.writeLoc l v = s.blockReset) ∨
    ∃ x a b c, s.writeLoc l v = { s with x := x, ovr := a, doneEn := b, donePend := c } := by
  cases l with
  | id | param | status | reserved => exact .inr (.inr ⟨s.x, s.ovr, s.doneEn, s.donePend, rfl⟩)
  | irqEn => exact .inr (.inr ⟨s.x, s.ovr, v.getLsbD 0, s.donePend, rfl⟩)
  | irqPend => exact .inr (.inr ⟨s.x, s.ovr, s.doneEn, _, s.writeLoc_irqPend v⟩)
  | ctrl =>
    rw [State.writeLoc, State.writeCtrl]
    split
    · exact .inr (.inl ⟨rfl, ‹_›, rfl⟩)
    · split
      · exact .inr (.inr ⟨s.x, false, s.doneEn, s.donePend, rfl⟩)
      · exact .inr (.inr ⟨s.x, s.ovr, s.doneEn, s.donePend, rfl⟩)
  | cmd =>
    obtain hb | hb := Bool.eq_false_or_eq_true s.busy
    · exact .inr (.inr ⟨s.x, true, s.doneEn, s.donePend, State.writeLoc_cmd_of_busy hb v⟩)
    · exact .inl ⟨rfl, hb, State.writeLoc_cmd_of_idle hb v⟩
  | bigWord r i =>
    refine .inr (.inr ?_)
    obtain hi | hi := Nat.lt_or_ge i s.nwords
    · obtain hb | hb := Bool.eq_false_or_eq_true s.busy
      · exact ⟨s.x, true, s.doneEn, s.donePend, State.writeLoc_bigWord_of_busy hb hi r v⟩
      · exact ⟨_, s.ovr, s.doneEn, s.donePend, State.writeLoc_bigWord_of_idle hb hi r v⟩
    · exact ⟨s.x, s.ovr, s.doneEn, s.donePend, State.writeLoc_bigWord_of_le hi r v⟩

/-- The Host's turn while a command runs leaves it running, or takes a write of CTRL that resets the block
(70_reset_and_hazards.md R166). -/
theorem State.hostTurn_cases_of_busy {s : State} (hb : s.busy = true) :
    (s.hostTurn.busy = true ∧ s.hostTurn.latch = s.latch ∧ s.hostTurn.cmd = s.cmd) ∨
    (s.hostTurn.busy = false ∧ s.hostTurn.BlockIsReset ∧
      ∃ v rest, s.hostOps = .write 32 0x008 v :: rest ∧ v.getLsbD 0 = true) := by
  obtain ⟨fr, ops, obs, n, _, e⟩ | ⟨off, l, v, rest, hops, hl, e⟩ := hostTurn_cases s
  · exact .inl (by rw [e]; exact ⟨hb, rfl, rfl⟩)
  rw [e]
  obtain ⟨_, hidle, _⟩ | ⟨rfl, hv, hreset⟩ | ⟨x, a, b, c, hkeep⟩ :=
    ({ s with hostOps := rest } : State).writeLoc_cases l v
  · exact absurd (hb.symm.trans hidle) nofun
  · obtain rfl := locate_ctrl hl
    rw [hreset]
    exact .inr ⟨rfl, State.blockIsReset_blockReset _, v, rest, hops, hv⟩
  · rw [hkeep]
    exact .inl ⟨hb, rfl, rfl⟩

/-- Settles O55: by the turn that the step takes. -/
theorem onlyResetAbandonsACommand : Obligations.OnlyResetAbandonsACommand := by
  unfold Obligations.OnlyResetAbandonsACommand
  intro s t hb ht
  rw [step_eq, State.afterStep_eq] at ht
  cases ht
  cases s.nextTurn with
  | host =>
    obtain ⟨hbusy, hsame⟩ | ⟨hidle, hreset, hline⟩ :=
      State.hostTurn_cases_of_busy (s := { s with schedule := s.schedule.tail }) hb
    · exact ⟨fun _ => hsame, fun hidle => absurd (hbusy.symm.trans hidle) nofun⟩
    · exact ⟨fun hbusy => absurd (hbusy.symm.trans hidle) nofun, fun _ => .inr (.inr ⟨rfl, hreset, hline⟩)⟩
  | engine =>
    obtain ⟨r, hr⟩ := exists_afterEngine_eq_complete (s := { s with schedule := s.schedule.tail }) hb
    rw [State.afterTurn, hr]
    exact ⟨nofun, fun _ => .inl ⟨rfl, hr ▸ engineTurn_eq _⟩⟩
  | resetPin => exact ⟨nofun, fun _ => .inr (.inl ⟨rfl, State.blockIsReset_blockReset _⟩)⟩

/-! ### The Host's loops that read STATUS -/

/-- A read of STATUS only observes its word (20_memory.md R53). -/
theorem State.hostRead_status (s : State) : s.hostRead 32 0x014 = s.observe (.value 0x014 s.statusWord) :=
  State.hostRead_eq_observe (l := .status) rfl rfl

theorem State.getLsbD_statusWord_zero (s : State) : s.statusWord.getLsbD 0 = s.busy := s.getLsbD_statusWord_flags.1

/-- The line makes a transaction that reads STATUS until BUSY = 0: WAIT, or the wait for irq once irq is 1
(00_scope.md R18, 70_reset_and_hazards.md R174). -/
def State.Polls (s : State) (line : HostOp) : Prop := line = .wait ∨ (line = .waitIrq ∧ s.irq = true)

theorem State.hostTurn_of_polls {s : State} {line : HostOp} {rest : List HostOp} (hops : s.hostOps = line :: rest)
    (hp : s.Polls line) : s.hostTurn = ({ s with hostOps := rest } : State).hostPoll line := by
  obtain rfl | ⟨rfl, hirq⟩ := hp
  · simp [State.hostTurn, hops]
  · simp [State.hostTurn, hops, hirq]

/-- A loop stays the next line while a command runs (00_scope.md R18). -/
theorem State.hostTurn_of_polls_of_busy {s : State} {line : HostOp} {rest : List HostOp}
    (hops : s.hostOps = line :: rest) (hp : s.Polls line) (hb : s.busy = true) :
    s.hostTurn = s.observe (.value 0x014 s.statusWord) := by
  have hbit : ({ s with hostOps := rest } : State).statusWord.getLsbD 0 = true :=
    (State.getLsbD_statusWord_zero _).trans hb
  have hline : ({ s with hostOps := line :: rest } : State) = s := by rw [← hops]
  rw [State.hostTurn_of_polls hops hp, State.hostPoll, if_pos hbit, State.hostRead_status]
  exact congrArg (State.observe · (.value 0x014 s.statusWord)) hline

/-- A loop ends on an idle block (00_scope.md R18). -/
theorem State.hostTurn_of_polls_of_idle {s : State} {line : HostOp} {rest : List HostOp}
    (hops : s.hostOps = line :: rest) (hp : s.Polls line) (hb : s.busy = false) :
    s.hostTurn = ({ s with hostOps := rest } : State).observe (.value 0x014 s.statusWord) := by
  have hbit : ¬ ({ s with hostOps := rest } : State).statusWord.getLsbD 0 = true := by
    rw [State.getLsbD_statusWord_zero]
    simp [hb]
  rw [State.hostTurn_of_polls hops hp, State.hostPoll, if_neg hbit, State.hostRead_status]
  rfl

/-- While irq is 0 the wait for irq makes no transaction (70_reset_and_hazards.md R174). -/
theorem State.hostTurn_waitIrq_of_not_irq {s : State} {rest : List HostOp} (hops : s.hostOps = .waitIrq :: rest)
    (hirq : s.irq = false) : s.hostTurn = s := by
  simp [State.hostTurn, hops, hirq]

/-! ### Progress -/

@[simp] theorem State.writeLoc_schedule (s : State) (l : Location) (v : Word) :
    (s.writeLoc l v).schedule = s.schedule :=
  (congrArg State.schedule (s.writeLoc_schedule_update l v s.schedule) :)

/-- Everything the Engine's turn can do: complete the running command with some result, or nothing (10_state.md R38). -/
theorem State.afterEngine_cases (s : State) :
    (∃ r, s.afterEngine = s.complete r) ∨ (s.busy = false ∧ s.afterEngine = s) := by
  obtain hb | hb := Bool.eq_false_or_eq_true s.busy
  · exact .inl (exists_afterEngine_eq_complete hb)
  · exact .inr ⟨hb, State.afterEngine_of_idle hb⟩

@[simp] theorem State.afterEngine_busy (s : State) : s.afterEngine.busy = false := by
  obtain ⟨r, e⟩ | ⟨hb, e⟩ := s.afterEngine_cases
  · rw [e, State.complete_busy]
  · rw [e, hb]

@[simp] theorem State.afterEngine_hostOps (s : State) : s.afterEngine.hostOps = s.hostOps := by
  obtain ⟨r, e⟩ | ⟨_, e⟩ := s.afterEngine_cases
  · rw [e, State.complete_hostOps]
  · rw [e]

@[simp] theorem State.afterEngine_schedule (s : State) : s.afterEngine.schedule = s.schedule := by
  obtain ⟨r, e⟩ | ⟨_, e⟩ := s.afterEngine_cases
  · rw [e, State.complete_schedule]
  · rw [e]

/-- A turn leaves the turns still to be taken. -/
@[simp] theorem State.afterTurn_schedule (s : State) (t : Turn) : (s.afterTurn t).schedule = s.schedule := by
  cases t with
  | host =>
    obtain ⟨fr, ops, obs, n, _, e⟩ | ⟨off, l, v, rest, _, _, e⟩ := hostTurn_cases s
    · rw [State.afterTurn, e]
    · rw [State.afterTurn, e, State.writeLoc_schedule]
  | engine => exact s.afterEngine_schedule
  | resetPin => rfl

/-- A loop of the Host that waits for BUSY = 0: every turn that may be scheduled leaves it waiting or past the loop, and
the Host's turn on an idle block takes it past (70_reset_and_hazards.md R178). -/
structure WaitsForIdle (mayTurn : Turn → Prop) (Waiting Past : State → Prop) : Prop where
  engine : mayTurn .engine
  reschedule : ∀ s (turns : List Turn), Waiting s → Waiting { s with schedule := turns }
  turn : ∀ s t, Waiting s → mayTurn t → Waiting (s.afterTurn t) ∨ Past (s.afterTurn t)
  idle : ∀ s, Waiting s → s.busy = false → Past s.hostTurn

section
variable {mayTurn : Turn → Prop} {Waiting Past : State → Prop}

/-- With no turn left to take, an idle block's Host goes past the loop, and a busy block completes first. -/
theorem WaitsForIdle.exists_past_of_schedule_nil (h : WaitsForIdle mayTurn Waiting Past) {s : State} (hs : Waiting s)
    (hsched : s.schedule = []) : ∃ n ≤ 2, Past (stepN n s) := by
  have hidle : ∀ u : State, Waiting u → u.schedule = [] → u.busy = false → Past (stepN 1 u) := fun u hu hnil hb => by
    rw [stepN_succ, stepN_zero, State.afterStep_of_idle hb hnil]
    exact h.idle u hu hb
  obtain hb | hb := Bool.eq_false_or_eq_true s.busy
  · have hstep : s.afterStep = s.afterTurn .engine := by simp [State.afterStep, hsched, hb]
    obtain hwait | hpast := h.turn s .engine hs h.engine
    · refine ⟨2, le_rfl, ?_⟩
      rw [stepN_succ, hstep]
      exact hidle _ hwait (by simpa using hsched) s.afterEngine_busy
    · refine ⟨1, by decide, ?_⟩
      rwa [stepN_succ, stepN_zero, hstep]
  · exact ⟨1, by decide, hidle s hs hsched hb⟩

/-- The loop ends after at most two steps more than there are turns to take, by induction on those turns. -/
theorem WaitsForIdle.exists_past (h : WaitsForIdle mayTurn Waiting Past) :
    ∀ (turns : List Turn) (s : State), s.schedule = turns → (∀ t ∈ turns, mayTurn t) → Waiting s →
      ∃ n, n ≤ turns.length + 2 ∧ Past (stepN n s) := by
  intro turns
  induction turns with
  | nil =>
    intro s hsched _ hs
    exact h.exists_past_of_schedule_nil hs hsched
  | cons t turns ih =>
    intro s hsched hmay hs
    obtain ⟨ht, hmay⟩ := List.forall_mem_cons.1 hmay
    have hstep : s.afterStep = ({ s with schedule := turns } : State).afterTurn t := by simp [State.afterStep, hsched]
    obtain hwait | hpast := h.turn _ t (h.reschedule s turns hs) ht
    · obtain ⟨n, hn, hpast⟩ := ih s.afterStep (by rw [hstep, State.afterTurn_schedule]) hmay (hstep ▸ hwait)
      exact ⟨n + 1, by simpa using hn, by rwa [stepN_succ]⟩
    · exact ⟨1, by simp, by rwa [stepN_succ, stepN_zero, hstep]⟩

end

/-- The Host has gone past a WAIT, having read BUSY = 0. -/
def State.PastWait (rest : List HostOp) (s : State) : Prop :=
  s.hostOps = rest ∧ s.busy = false ∧ ∃ w obs, s.observed = .value 0x014 w :: obs ∧ w.getLsbD 0 = false

theorem State.pastWait_hostTurn {s : State} {rest : List HostOp} (hops : s.hostOps = .wait :: rest)
    (hb : s.busy = false) : s.hostTurn.PastWait rest := by
  rw [State.hostTurn_of_polls_of_idle hops (.inl rfl) hb]
  exact ⟨rfl, hb, s.statusWord, s.observed, rfl, s.getLsbD_statusWord_zero.trans hb⟩

/-- WAIT waits for BUSY = 0, whatever turns are taken (00_scope.md R18). -/
theorem waitsForIdle_wait (rest : List HostOp) :
    WaitsForIdle (fun _ => True) (fun s => s.hostOps = .wait :: rest) (State.PastWait rest) where
  engine := trivial
  reschedule _ _ h := h
  turn s t hops _ := by
    cases t with
    | host =>
      obtain hb | hb := Bool.eq_false_or_eq_true s.busy
      · left
        rwa [State.afterTurn, State.hostTurn_of_polls_of_busy hops (.inl rfl) hb]
      · exact .inr (State.pastWait_hostTurn hops hb)
    | engine => exact .inl (s.afterEngine_hostOps.trans hops)
    | resetPin => exact .inl hops
  idle _ := State.pastWait_hostTurn

/-- Settles O58: WAIT waits for BUSY = 0, so it ends. -/
theorem waitLoopEnds : Obligations.WaitLoopEnds := by
  unfold Obligations.WaitLoopEnds
  intro s rest hops
  exact (waitsForIdle_wait rest).exists_past s.schedule s rfl (fun _ _ => trivial) hops

/-! ### The wait for irq -/

/-- The Host waits for irq with the interrupt enabled, and the command it waits for runs or has completed with its
interrupt pending. -/
def State.AwaitsIrq (rest : List HostOp) (s : State) : Prop :=
  s.hostOps = .waitIrq :: rest ∧ s.doneEn = true ∧ (s.busy = false → s.done = true ∧ s.donePend = true)

/-- The Host has gone past the wait for irq, and the command has completed. -/
def State.PastIrq (rest : List HostOp) (s : State) : Prop := s.hostOps = rest ∧ s.busy = false ∧ s.done = true

theorem State.AwaitsIrq.hostTurn_idle {s : State} {rest : List HostOp} (h : s.AwaitsIrq rest) (hb : s.busy = false) :
    s.hostTurn.PastIrq rest := by
  obtain ⟨hops, hen, hcompleted⟩ := h
  obtain ⟨hdone, hpend⟩ := hcompleted hb
  have hirq : s.irq = true := by simp [State.irq, hen, hpend]
  rw [State.hostTurn_of_polls_of_idle hops (.inr ⟨rfl, hirq⟩) hb]
  exact ⟨rfl, hb, hdone⟩

theorem State.AwaitsIrq.hostTurn_busy {s : State} {rest : List HostOp} (h : s.AwaitsIrq rest) (hb : s.busy = true) :
    s.hostTurn.AwaitsIrq rest := by
  obtain ⟨hops, hkept⟩ := id h
  obtain hirq | hirq := Bool.eq_false_or_eq_true s.irq
  · rw [State.hostTurn_of_polls_of_busy hops (.inr ⟨rfl, hirq⟩) hb]
    exact ⟨hops, hkept⟩
  · rwa [State.hostTurn_waitIrq_of_not_irq hops hirq]

/-- A completion sets DONE and DONE_PEND (10_state.md R38). -/
theorem State.AwaitsIrq.afterEngine {s : State} {rest : List HostOp} (h : s.AwaitsIrq rest) :
    s.afterEngine.AwaitsIrq rest := by
  obtain ⟨r, e⟩ | ⟨_, e⟩ := s.afterEngine_cases
  · obtain ⟨hops, hen, _⟩ := h
    rw [e]
    exact ⟨hops, hen, fun _ => ⟨rfl, rfl⟩⟩
  · rwa [e]

/-- With the interrupt enabled the wait for irq waits for BUSY = 0, when the reset input takes no turn
(60_exceptions.md R150). -/
theorem waitsForIdle_waitIrq (rest : List HostOp) :
    WaitsForIdle (· ≠ .resetPin) (State.AwaitsIrq rest) (State.PastIrq rest) where
  engine := nofun
  reschedule _ _ h := h
  turn s t h ht := by
    cases t with
    | host =>
      obtain hb | hb := Bool.eq_false_or_eq_true s.busy
      · exact .inl (h.hostTurn_busy hb)
      · exact .inr (h.hostTurn_idle hb)
    | engine => exact .inl h.afterEngine
    | resetPin => exact absurd rfl ht
  idle _ := State.AwaitsIrq.hostTurn_idle

/-! ### The STATUS check -/

/-- What the Host finds in the STATUS word is OVR and ERRCODE (10_state.md R31). -/
@[simp] theorem State.verdictOf_statusWord (s : State) : verdictOf s.statusWord = ⟨s.ovr, s.errcode.code⟩ := by
  obtain ⟨_, _, _, hovr⟩ := s.getLsbD_statusWord_flags
  rw [verdictOf, hovr, State.extractLsb'_statusWord_errcode]

/-- The check passes when no write was dropped and no error is reported (70_reset_and_hazards.md R174). -/
theorem Verdict.passed_iff (a : Bool) (c : ErrCode) : (⟨a, c.code⟩ : Verdict).passed = true ↔ a = false ∧ c = .ok := by
  rw [Verdict.passed, Bool.and_eq_true, Bool.not_eq_true', beq_iff_eq, ErrCode.code_eq_zero]

/-- The Host's turn on a STATUS check: it observes the word and the verdict, and goes on behind the skipped lines when
the check fails (70_reset_and_hazards.md R174). -/
theorem State.hostTurn_check {s : State} {skip : Nat} {rest : List HostOp} (hops : s.hostOps = .check skip :: rest) :
    s.hostTurn =
      (({ s with hostOps := if s.ovr = false ∧ s.errcode = .ok then rest else rest.drop skip } : State).observe
        (.value 0x014 s.statusWord)).observe (.verdict ⟨s.ovr, s.errcode.code⟩) := by
  have hword : ({ s with hostOps := rest } : State).statusWord = s.statusWord := rfl
  have hturn : s.hostTurn = ({ s with hostOps := rest } : State).hostCheck skip := by simp [State.hostTurn, hops]
  rw [hturn, State.hostCheck, State.hostRead_status, hword, State.verdictOf_statusWord]
  simp only [← Verdict.passed_iff]
  split <;> rfl

/-- Settles O60: the loop's turns, the wait that ends, and the STATUS check. -/
theorem driverWaitsForIrqAndChecksStatus : Obligations.DriverWaitsForIrqAndChecksStatus := by
  unfold Obligations.DriverWaitsForIrqAndChecksStatus
  intro s rest
  refine ⟨fun hops => ⟨fun hirq => State.hostTurn_waitIrq_of_not_irq hops hirq,
      fun hirq hb => State.hostTurn_of_polls_of_busy hops (.inr ⟨rfl, hirq⟩) hb,
      fun hirq hb => State.hostTurn_of_polls_of_idle hops (.inr ⟨rfl, hirq⟩) hb, fun hb hen hpin => ?ends⟩,
    fun skip hops => ?check⟩
  case ends =>
    have hwait : s.AwaitsIrq rest := ⟨hops, hen, fun hidle => absurd (hb.symm.trans hidle) nofun⟩
    exact (waitsForIdle_waitIrq rest).exists_past s.schedule s rfl hpin hwait
  case check =>
    rw [State.hostTurn_check hops]
    exact ⟨⟨rfl, rfl, rfl, rfl, rfl, rfl, rfl, rfl, rfl, rfl⟩, rfl, rfl⟩

/-! ### The driver protocol meets no hazard -/

/-- A line that makes one good access and issues no command: on an idle block it meets no hazard and leaves the block
idle. -/
inductive HostOp.Plain : HostOp → Prop where
  | read {off : Nat} {l : Location} (hl : locate off = some l) : Plain (hostRd off)
  | write {off : Nat} {l : Location} (hl : locate off = some l) (hcmd : l ≠ .cmd) (v : Word) : Plain (hostWr off v)

/-- Lines that meet no hazard from a block with the given BUSY on: only a loop that waits for BUSY = 0 stands where a
command may be running (70_reset_and_hazards.md R174). -/
inductive Guarded : Bool → List HostOp → Prop where
  | done (busy : Bool) : Guarded busy []
  | poll {busy : Bool} {line : HostOp} {rest : List HostOp} (hline : line = .wait ∨ line = .waitIrq)
    (hrest : Guarded false rest) : Guarded busy (line :: rest)
  | plain {op : HostOp} {rest : List HostOp} (hop : op.Plain) (hrest : Guarded false rest) : Guarded false (op :: rest)
  | issue {rest : List HostOp} (v : Word) (hrest : Guarded true rest) : Guarded false (hostWr 0x010 v :: rest)
  | check {skip : Nat} {rest : List HostOp} (hrest : Guarded false rest) (hskip : Guarded false (rest.drop skip)) :
    Guarded false (.check skip :: rest)

/-- What is safe while a command runs is safe once it has ended. -/
theorem Guarded.idle {busy : Bool} {ops : List HostOp} (h : Guarded busy ops) : Guarded false ops := by
  cases h with
  | done => exact .done false
  | poll hline hrest => exact .poll hline hrest
  | plain hop hrest => exact .plain hop hrest
  | issue v hrest => exact .issue v hrest
  | check hrest hskip => exact .check hrest hskip

/-- Plain accesses may stand before guarded lines. -/
theorem Guarded.append {ops rest : List HostOp} (hops : ∀ op ∈ ops, op.Plain) (hrest : Guarded false rest) :
    Guarded false (ops ++ rest) := by
  induction ops with
  | nil => exact hrest
  | cons op ops ih =>
    obtain ⟨hop, hops⟩ := List.forall_mem_cons.1 hops
    exact .plain hop (ih hops)

theorem Guarded.of_plain {ops : List HostOp} (hops : ∀ op ∈ ops, op.Plain) : Guarded false ops := by
  simpa using Guarded.append hops (.done false)

/-- What a run of guarded lines keeps: OVR is 0, the fault record and the number of draws are as given, and the lines
still to run are guarded. -/
structure State.Unharmed (fr : Option Fault) (d : Nat) (s : State) : Prop where
  ovr : s.ovr = false
  record : s.faultRecord = fr
  draws : s.draws = d
  lines : Guarded s.busy s.hostOps

section
variable {fr : Option Fault} {d : Nat}

theorem State.Unharmed.reschedule {s : State} (h : s.Unharmed fr d) (turns : List Turn) :
    State.Unharmed fr d { s with schedule := turns } :=
  ⟨h.ovr, h.record, h.draws, h.lines⟩

theorem State.Unharmed.afterEngine {s : State} (h : s.Unharmed fr d) : s.afterEngine.Unharmed fr d := by
  obtain ⟨r, e⟩ | ⟨_, e⟩ := s.afterEngine_cases
  · rw [e]
    exact ⟨h.ovr, h.record, h.draws, h.lines.idle⟩
  · rwa [e]

theorem State.Unharmed.blockReset {s : State} (h : s.Unharmed fr d) : s.blockReset.Unharmed fr d :=
  ⟨rfl, h.record, h.draws, h.lines.idle⟩

/-- A loop reads STATUS at most, and goes on when the block is idle. -/
theorem State.Unharmed.hostTurn_poll {s : State} {line : HostOp} {rest : List HostOp} (h : s.Unharmed fr d)
    (hops : s.hostOps = line :: rest) (hline : line = .wait ∨ line = .waitIrq) (hrest : Guarded false rest) :
    s.hostTurn.Unharmed fr d := by
  have hpolls : s.Polls line → s.hostTurn.Unharmed fr d := fun hp => by
    obtain hb | hb := Bool.eq_false_or_eq_true s.busy
    · rw [State.hostTurn_of_polls_of_busy hops hp hb]
      exact ⟨h.ovr, h.record, h.draws, h.lines⟩
    · rw [State.hostTurn_of_polls_of_idle hops hp hb]
      exact ⟨h.ovr, h.record, h.draws, hb.symm ▸ hrest⟩
  obtain rfl | rfl := hline
  · exact hpolls (.inl rfl)
  · obtain hirq | hirq := Bool.eq_false_or_eq_true s.irq
    · exact hpolls (.inr ⟨rfl, hirq⟩)
    · rwa [State.hostTurn_waitIrq_of_not_irq hops hirq]

/-- On an idle block a read of a location takes no draw (20_memory.md R53). -/
theorem State.readLoc_snd_of_idle {s : State} (hb : s.busy = false) (l : Location) : (s.readLoc l).2 = s := by
  cases l with
  | id | param | ctrl | cmd | status | irqEn | irqPend | reserved => rfl
  | bigWord r i =>
    obtain hi | hi := Nat.lt_or_ge i s.nwords
    · rw [State.readLoc_bigWord_of_idle hb hi]
    · rw [State.readLoc_bigWord_of_le hi]

/-- On an idle block a located write sets no OVR. -/
theorem State.writeLoc_ovr_of_idle {s : State} (hb : s.busy = false) (hovr : s.ovr = false) (l : Location) (v : Word) :
    (s.writeLoc l v).ovr = false := by
  obtain hkeep | ⟨_, hbusy, _⟩ | ⟨hclear, _⟩ := s.writeLoc_ovr_cases l v
  · exact hkeep.trans hovr
  · exact absurd (hb.symm.trans hbusy) nofun
  · exact hclear

/-- A located write neither takes a draw nor changes the Host's lines. -/
theorem State.writeLoc_hostOps_draws (s : State) (l : Location) (v : Word) :
    (s.writeLoc l v).hostOps = s.hostOps ∧ (s.writeLoc l v).draws = s.draws := by
  obtain ⟨_, _, e⟩ | ⟨_, _, e⟩ | ⟨x, a, b, c, e⟩ := s.writeLoc_cases l v <;> rw [e] <;> exact ⟨rfl, rfl⟩

/-- Only a write of CMD makes an idle block busy (10_state.md R37). -/
theorem State.writeLoc_busy_of_ne_cmd {s : State} (hb : s.busy = false) {l : Location} (hcmd : l ≠ .cmd) (v : Word) :
    (s.writeLoc l v).busy = false := by
  obtain ⟨rfl, _⟩ | ⟨_, _, e⟩ | ⟨x, a, b, c, e⟩ := s.writeLoc_cases l v
  · exact absurd rfl hcmd
  · rw [e, State.blockReset_busy]
  · rw [e, hb]

/-- A located write on an idle block meets no hazard, when the lines after it are guarded. -/
theorem State.Unharmed.hostTurn_hostWr {s : State} {off : Nat} {l : Location} {v : Word} {rest : List HostOp}
    (h : s.Unharmed fr d) (hb : s.busy = false) (hops : s.hostOps = hostWr off v :: rest)
    (hl : locate off = some l) (hrest : Guarded (({ s with hostOps := rest } : State).writeLoc l v).busy rest) :
    s.hostTurn.Unharmed fr d := by
  obtain ⟨hlines, hdraws⟩ := ({ s with hostOps := rest } : State).writeLoc_hostOps_draws l v
  rw [State.hostTurn_hostWr hops hl]
  exact ⟨State.writeLoc_ovr_of_idle (s := { s with hostOps := rest }) hb h.ovr l v,
    (State.writeLoc_faultRecord _ l v).trans h.record, hdraws.trans h.draws, hlines.symm ▸ hrest⟩

/-- The Host's turn on a line `RD off` of the window (00_scope.md R18). -/
theorem State.hostTurn_hostRd {s : State} {off : Nat} {l : Location} {rest : List HostOp}
    (hops : s.hostOps = hostRd off :: rest) (hl : locate off = some l) :
    s.hostTurn = (({ s with hostOps := rest } : State).readLoc l).2.observe
      (.value off (({ s with hostOps := rest } : State).readLoc l).1) := by
  rw [← State.hostRead_of_locate hl]
  simp [State.hostTurn, hops, hostRd]

theorem State.Unharmed.hostTurn_plain {s : State} {op : HostOp} {rest : List HostOp} (h : s.Unharmed fr d)
    (hb : s.busy = false) (hops : s.hostOps = op :: rest) (hop : op.Plain) (hrest : Guarded false rest) :
    s.hostTurn.Unharmed fr d := by
  cases hop with
  | read hl =>
    rw [State.hostTurn_hostRd hops hl, State.readLoc_snd_of_idle (s := { s with hostOps := rest }) hb]
    exact ⟨h.ovr, h.record, h.draws, hb.symm ▸ hrest⟩
  | write hl hcmd v =>
    refine h.hostTurn_hostWr hb hops hl ?_
    rwa [State.writeLoc_busy_of_ne_cmd (s := { s with hostOps := rest }) hb hcmd]

/-- The Host's turn on a guarded line meets no hazard. -/
theorem State.Unharmed.hostTurn {s : State} (h : s.Unharmed fr d) : s.hostTurn.Unharmed fr d := by
  have hlines := h.lines
  generalize hops : s.hostOps = ops at hlines
  generalize hb : s.busy = busy at hlines
  cases hlines with
  | done => simpa [State.hostTurn, hops] using h
  | poll hline hrest => exact h.hostTurn_poll hops hline hrest
  | plain hop hrest => exact h.hostTurn_plain hb hops hop hrest
  | @issue rest v hrest =>
    refine h.hostTurn_hostWr (l := .cmd) hb hops rfl ?_
    rwa [State.writeLoc_cmd_of_idle (s := { s with hostOps := rest }) hb, State.accept_busy]
  | check hrest hskip =>
    rw [State.hostTurn_check hops]
    refine ⟨h.ovr, h.record, h.draws, ?_⟩
    rw [State.observe_busy, State.observe_busy, State.observe_hostOps, State.observe_hostOps, hb]
    split
    · exact hrest
    · exact hskip

theorem State.Unharmed.afterStep {s : State} (h : s.Unharmed fr d) : s.afterStep.Unharmed fr d := by
  rw [State.afterStep_eq]
  have hs := h.reschedule s.schedule.tail
  cases s.nextTurn with
  | host => exact hs.hostTurn
  | engine => exact hs.afterEngine
  | resetPin => exact hs.blockReset

/-- A Host with guarded lines never meets a hazard, whatever turns are scheduled. -/
theorem State.Unharmed.stepN (n : Nat) : ∀ {s : State}, s.Unharmed fr d → (stepN n s).Unharmed fr d := by
  induction n with
  | zero => exact id
  | succ n ih =>
    intro s h
    rw [stepN_succ]
    exact ih h.afterStep

end

theorem plain_of_mem_wrb {k : Nat} (hk : k ≤ 128) {r : RegIdx} (hr : namesReg r = true) (v : Nat) :
    ∀ op ∈ wrb k r v, op.Plain := by
  intro op hop
  obtain ⟨i, hi, rfl⟩ := List.mem_map.1 hop
  exact .write (locate_bigOffset hr ((List.mem_range.1 hi).trans_le hk)) nofun _

theorem plain_of_mem_rdb {k : Nat} (hk : k ≤ 128) {r : RegIdx} (hr : namesReg r = true) :
    ∀ op ∈ rdb k r, op.Plain := by
  intro op hop
  obtain ⟨i, hi, rfl⟩ := List.mem_map.1 hop
  exact .read (locate_bigOffset hr ((List.mem_range.1 hi).trans_le hk))

/-- The lines of the driver protocol are guarded: each command is waited for before the next access
(70_reset_and_hazards.md R174). -/
theorem guarded_driver (busy irq : Bool) {k : Nat} (hk : k ≤ 128) {operands : List (RegIdx × Nat)}
    (hoperands : ∀ p ∈ operands, namesReg p.1 = true) {i : Instr} (hwf : i.wf = true) :
    Guarded busy (driver irq k operands i) := by
  have hwrites : ∀ op ∈ operands.flatMap (fun p => wrb k p.1 p.2), op.Plain := fun op hop => by
    obtain ⟨p, hp, hop⟩ := List.mem_flatMap.1 hop
    exact plain_of_mem_wrb hk (hoperands p hp) p.2 op hop
  have hreads : ∀ op ∈ i.dests.flatMap (rdb k), op.Plain := fun op hop => by
    obtain ⟨r, hr, hop⟩ := List.mem_flatMap.1 hop
    exact plain_of_mem_rdb hk (namesReg_of_mem_dests hwf hr) op hop
  have hack : Guarded false (if irq then [hostWr 0x01C 1] else []) := by
    split
    · exact .plain (.write (l := .irqPend) rfl nofun 1) (.done false)
    · exact .done false
  have hloop : (if irq then .waitIrq else .wait) = HostOp.wait ∨ (if irq then .waitIrq else .wait) = HostOp.waitIrq :=
    (ite_eq_or_eq irq _ _).symm
  simp only [driver, List.cons_append, List.append_assoc, List.nil_append]
  refine .poll (.inl rfl) (.append hwrites (.issue _ (.poll hloop (.check (.append hreads hack) ?_))))
  rwa [List.drop_left]

/-- Settles O59: every turn keeps a state unharmed, and the driver starts in one. -/
theorem driverProtocolMeetsNoHazard : Obligations.DriverProtocolMeetsNoHazard := by
  unfold Obligations.DriverProtocolMeetsNoHazard
  intro s irq operands i n ⟨⟨_, hk⟩, _⟩ hwf hoperands hops hovr
  have hstart : s.Unharmed s.faultRecord s.draws := ⟨hovr, rfl, rfl, hops ▸ guarded_driver _ _ hk hoperands hwf⟩
  obtain ⟨hovr', hrecord, hdraws, _⟩ := hstart.stepN n
  exact ⟨hovr', hrecord, hdraws⟩

end Sys2Proof.Machine
end
